-- ==== Sys2Proof/Word.lean ====
section
/-! DEFINITION. The words of the engine: bytes, the 32-bit and 64-bit registers' words, and byte arrays of fixed length. -/

namespace Sys2Proof

/-- An 8-bit byte: an element of BUF, SEQ_BUF or STR, or a character (00_scope.md R12, R15). -/
abbrev Byte := BitVec 8

/-- A 32-bit word: CMD, STATUS, STR_LEN and SEQ_CTRL (00_scope.md R8). -/
abbrev Word32 := BitVec 32

/-- A 64-bit word: TIME_OP, RES, NOW and SEQ_TIME (00_scope.md R8). -/
abbrev Word64 := BitVec 64

/-- A 48-bit time in milliseconds: what the clock port carries (00_scope.md R7, R8). -/
abbrev Time := BitVec 48

/-- A byte array `A[0..n-1]`, indexed from 0 (00_scope.md R9). -/
abbrev Bytes (n : Nat) := Vector Byte n

end Sys2Proof
end

