-- ==== Sys2Proof/Syntax.lean ====
section
/-! DEFINITION. The commands, one constructor per row of spec/opcode_table.json (30_encoding.md R74), and their
assembler text (30_encoding.md R77). -/

namespace Sys2Proof

/-- A command with the operands its word carries (30_encoding.md R71 to R74). `encodeStr` and `decodeStr` are the
commands ENCODE and DECODE. -/
inductive Instr
  /-- SYM_ENC with its IMM8; legal only for a symbol value 0 to 31 (R73). -/
  | symEnc (imm8 : BitVec 8)
  /-- SYM_DEC with its IMM8, one character byte. -/
  | symDec (imm8 : BitVec 8)
  | clear
  | setTime
  | getTime
  | setRand
  /-- INC with T, throwOnOverflow. -/
  | inc (throwOnOverflow : Bool)
  | validBuf
  /-- MAKE with S (true takes the time from TIME_OP) and E (true encodes into STR too). -/
  | make (fromTimeOp : Bool) (alsoEncode : Bool)
  | encodeStr
  | decodeStr
  | validStr
  /-- SEQ_INIT with M, mitigateOverflow. -/
  | seqInit (mitigate : Bool)
  /-- GEN_MONO with E (true encodes into STR too). -/
  | genMono (alsoEncode : Bool)
deriving DecidableEq, Repr

/-- A dot suffix of the assembler text, absent when its flag is 0 (30_encoding.md R77). -/
def flagSuffix (flag : Bool) (suffix : String) : String :=
  if flag then suffix else ""

/-- The assembler text of a command (30_encoding.md R77). -/
def Instr.assembly : Instr → String
  | .symEnc v => "SYM_ENC #" ++ toString v.toNat
  | .symDec c => "SYM_DEC #" ++ toString c.toNat
  | .clear => "CLEAR"
  | .setTime => "SET_TIME"
  | .getTime => "GET_TIME"
  | .setRand => "SET_RAND"
  | .inc t => "INC" ++ flagSuffix t ".T"
  | .validBuf => "VALID_BUF"
  | .make s e => "MAKE" ++ flagSuffix s ".S" ++ flagSuffix e ".E"
  | .encodeStr => "ENCODE"
  | .decodeStr => "DECODE"
  | .validStr => "VALID_STR"
  | .seqInit m => "SEQ_INIT" ++ flagSuffix m ".M"
  | .genMono e => "GEN_MONO" ++ flagSuffix e ".E"

end Sys2Proof
end

