-- ==== Sys2Proof/WellFormed.lean ====
section
/-! DEFINITION. Which terms of `Instr` stand for a legal command. -/

namespace Sys2Proof

/-- A command is well formed when its operands are ones its word may carry: the only check the encoding leaves open
is that SYM_ENC's IMM8 is a symbol value (30_encoding.md R73: "Legality requires `IMM8 <= 31`"). -/
def Instr.wellFormed : Instr → Bool
  | .symEnc v => decide (v.toNat ≤ 31)
  | .symDec _ => true
  | .clear => true
  | .setTime => true
  | .getTime => true
  | .setRand => true
  | .inc _ => true
  | .validBuf => true
  | .make _ _ => true
  | .encodeStr => true
  | .decodeStr => true
  | .validStr => true
  | .seqInit _ => true
  | .genMono _ => true

end Sys2Proof
end

