-- ==== Sys2Proof/Decode.lean ====
section
/-! DEFINITION. The command word's fields, the decoder (total on every word, rejecting by name) and the encoder. -/

namespace Sys2Proof

/-- OP = w[7:0] (30_encoding.md R71). -/
def opField (w : Word32) : BitVec 8 := w.extractLsb' 0 8

/-- T = w[8]. -/
def flagT (w : Word32) : Bool := w.getLsbD 8

/-- S = w[9]. -/
def flagS (w : Word32) : Bool := w.getLsbD 9

/-- E = w[10]. -/
def flagE (w : Word32) : Bool := w.getLsbD 10

/-- M = w[11]. -/
def flagM (w : Word32) : Bool := w.getLsbD 11

/-- w[15:12], reserved, must be 0. -/
def reservedLow (w : Word32) : BitVec 4 := w.extractLsb' 12 4

/-- IMM8 = w[23:16], unsigned (30_encoding.md R73). -/
def imm8Field (w : Word32) : BitVec 8 := w.extractLsb' 16 8

/-- w[31:24], reserved, must be 0. -/
def reservedHigh (w : Word32) : BitVec 8 := w.extractLsb' 24 8

/-- Why a word is illegal: the kinds of illegal word 30_encoding.md R75 lists. All of them execute as
`raise IllegalCommand`; which name a word with several faults gets is the model's own choice and nothing reads it
(log 11). -/
inductive IllegalWord
  /-- An OP not in the table, OP = 0x00 included. -/
  | reservedOpcode
  /-- Any 1 in w[15:12] or w[31:24]. -/
  | reservedBitSet
  /-- A flag bit set in a command that does not list it. -/
  | flagNotListed
  /-- A nonzero IMM8 in a command other than SYM_ENC and SYM_DEC. -/
  | immediateNotListed
  /-- SYM_ENC with w[23:21] != 0. -/
  | symbolOutOfRange
deriving DecidableEq, Repr

/-- The bits of a command word that a row of the opcode map lists as free (30_encoding.md R74). -/
structure FreeFields where
  t : Bool := false
  s : Bool := false
  e : Bool := false
  m : Bool := false
  imm8 : Bool := false
deriving DecidableEq, Repr

/-- The free fields of each command's row (30_encoding.md R74, column "free bits"). -/
def Instr.freeFields : Instr → FreeFields
  | .symEnc _ => { imm8 := true }
  | .symDec _ => { imm8 := true }
  | .inc _ => { t := true }
  | .make _ _ => { s := true, e := true }
  | .seqInit _ => { m := true }
  | .genMono _ => { e := true }
  | .clear => {}
  | .setTime => {}
  | .getTime => {}
  | .setRand => {}
  | .validBuf => {}
  | .encodeStr => {}
  | .decodeStr => {}
  | .validStr => {}

/-- The command an opcode names, with the operands of its row (30_encoding.md R74); none for a reserved opcode. -/
def commandOf (w : Word32) : Option Instr :=
  match (opField w).toNat with
  | 0x01 => some (.symEnc (imm8Field w))
  | 0x02 => some (.symDec (imm8Field w))
  | 0x10 => some .clear
  | 0x11 => some .setTime
  | 0x12 => some .getTime
  | 0x13 => some .setRand
  | 0x14 => some (.inc (flagT w))
  | 0x15 => some .validBuf
  | 0x16 => some (.make (flagS w) (flagE w))
  | 0x20 => some .encodeStr
  | 0x21 => some .decodeStr
  | 0x22 => some .validStr
  | 0x30 => some (.seqInit (flagM w))
  | 0x31 => some (.genMono (flagE w))
  | _ => none

/-- Every flag that w sets is one the row lists (30_encoding.md R72: "In every other command it must be 0"). -/
def flagsListed (w : Word32) (f : FreeFields) : Bool :=
  (!flagT w || f.t) && (!flagS w || f.s) && (!flagE w || f.e) && (!flagM w || f.m)

/-- Decoding, total over all 2^32 words (30_encoding.md R75). -/
def decode (w : Word32) : Except IllegalWord Instr :=
  if reservedLow w ≠ 0 ∨ reservedHigh w ≠ 0 then .error .reservedBitSet
  else
    match commandOf w with
    | none => .error .reservedOpcode
    | some i =>
      if flagsListed w i.freeFields = false then .error .flagNotListed
      else if imm8Field w ≠ 0 ∧ i.freeFields.imm8 = false then .error .immediateNotListed
      else if i.wellFormed = false then .error .symbolOutOfRange
      else .ok i

/-- A field's value at its place in the command word. -/
def fieldAt {n : Nat} (lo : Nat) (v : BitVec n) : Word32 := v.setWidth 32 <<< lo

/-- A command word from its fields, reserved bits 0 (30_encoding.md R71). -/
def wordOfFields (op imm8 : BitVec 8) (t s e m : Bool) : Word32 :=
  fieldAt 0 op ||| fieldAt 8 (BitVec.ofBool t) ||| fieldAt 9 (BitVec.ofBool s) ||| fieldAt 10 (BitVec.ofBool e) |||
    fieldAt 11 (BitVec.ofBool m) ||| fieldAt 16 imm8

/-- The command word of a command (30_encoding.md R71, R74). -/
def encode : Instr → Word32
  | .symEnc v => wordOfFields 0x01 v false false false false
  | .symDec c => wordOfFields 0x02 c false false false false
  | .clear => wordOfFields 0x10 0 false false false false
  | .setTime => wordOfFields 0x11 0 false false false false
  | .getTime => wordOfFields 0x12 0 false false false false
  | .setRand => wordOfFields 0x13 0 false false false false
  | .inc t => wordOfFields 0x14 0 t false false false
  | .validBuf => wordOfFields 0x15 0 false false false false
  | .make s e => wordOfFields 0x16 0 false s e false
  | .encodeStr => wordOfFields 0x20 0 false false false false
  | .decodeStr => wordOfFields 0x21 0 false false false false
  | .validStr => wordOfFields 0x22 0 false false false false
  | .seqInit m => wordOfFields 0x30 0 false false false m
  | .genMono e => wordOfFields 0x31 0 false false e false

/-- The instruction the decoder reads from an instruction of `nbits` bits `w`, all bits above `nbits` zero. Every
command is one 32-bit word (30_encoding.md R70), so a longer one is none. -/
def decodeTableWord (nbits w : Nat) : Option Instr :=
  if nbits ≤ 32 then
    match decode (BitVec.ofNat 32 (w % 2 ^ nbits)) with
    | .ok i => some i
    | .error _ => none
  else none

end Sys2Proof
end

