-- ==== Sys2Proof/Config.lean ====
section
/-! DEFINITION. What one implementation or its platform fixes, and the free values. None has a body: nothing can be
proved of their values, so a claim holds whatever they are. -/

namespace Sys2Proof

/-- FREE VALUE (log 2). The clock port's sample number n, where the state lists no sample: any 48 bits, equal to,
above or below any other (60_exceptions.md R189, 93_implementation_defined.md U1). -/
opaque Config.clockSample : Nat → Time

/-- FREE VALUE (log 3). The random port's draw number n, where the state lists no draw: any ten bytes, under no law
(60_exceptions.md R190, 93_implementation_defined.md U2). -/
opaque Config.randomDraw : Nat → Bytes 10

/-- ENGINE_BASE, where the platform places the register window: left open (20_memory.md R50,
93_implementation_defined.md U3, log 10). -/
opaque Config.engineBase : Nat

end Sys2Proof
end

