-- ==== Sys2Proof/Machine/State.lean ====
section
/-! DEFINITION. The engine's state, whole and as plain data, the reasons a step can stop, and the state after reset. -/

namespace Sys2Proof.Machine

/-- The errors a command can raise (60_exceptions.md R180). -/
inductive Err
  /-- Code 1: STR_LEN is not 26. -/
  | invalidLength
  /-- Code 2: a character outside the alphabet, or a first character above 7. -/
  | invalidCharacter
  /-- Code 3: a requested time above 2^48 - 1. -/
  | timestampOutOfRange
  /-- Code 4: the random segment was all 0xFF when incremented. -/
  | overflow
  /-- Code 5: the word matches no row of the opcode map. -/
  | illegalCommand
deriving DecidableEq, Repr

/-- STATUS's two fields (10_state.md R29). Its bits 31:4 always read 0 and have no storage (log 7). -/
structure Status where
  /-- ERR: the most recent command's error, none on success. -/
  err : Option Err
  /-- STICKY: some command since reset ended with an error. -/
  sticky : Bool
deriving DecidableEq, Repr

/-- The path of a successful GEN_MONO (10_state.md R31, 43_sequencer.md R163). -/
inductive Path
  /-- LASTMODE 0. -/
  | fresh
  /-- LASTMODE 1. -/
  | incrementing
deriving DecidableEq, Repr

/-- SEQ_CTRL's three fields (10_state.md R31). Its bits 31:3 always read 0 and have no storage (log 7). -/
structure SeqCtrl where
  /-- SEQ_VALID: GEN_MONO has emitted since the last reset or SEQ_INIT. -/
  valid : Bool
  /-- MITIGATE: clear bit 7 of byte 6 on every Fresh generation. -/
  mitigate : Bool
  /-- LASTMODE: the path of the last successful GEN_MONO. -/
  lastMode : Path
deriving DecidableEq, Repr

/-- A host access to the register window, at a window offset (20_memory.md R52, R55, R56). -/
inductive HostAccess
  /-- MemRead(off, n). -/
  | read (off n : Nat)
  /-- MemWrite(off, n, v). -/
  | write (off n v : Nat)
deriving DecidableEq, Repr

/-- What can arrive at the engine from outside. -/
inductive PortEvent
  | access (a : HostAccess)
  /-- The reset input takes this level (70_reset_and_hazards.md R200). -/
  | resetLine (asserted : Bool)
deriving DecidableEq, Repr

/-- The engine itself never stops: every error is reported in STATUS and the next command runs
(60_exceptions.md R187). So no fault exists. -/
inductive Fault
deriving DecidableEq, Repr

/-- Why a step has no meaning. All are safe: the model stops where the spec gives no effect. -/
inductive Refusal
  /-- Raised by an arm of `exec` whose command has no meaning yet; no arm raises it now. -/
  | notModelled (mnemonic : String)
  /-- Raised by a host access at offset 0x6A to 0x7F (20_memory.md R53, 60_exceptions.md R185). Safe. -/
  | reservedOffset
  /-- Raised by a host access at an offset outside 0x00 to 0x7F, where the window has nothing (20_memory.md R50). Safe. -/
  | outsideWindow
  /-- Raised by a host access inside a scalar register but not at its offset (20_memory.md R52). Safe. -/
  | misaligned
  /-- Raised by a host access of a width other than its register's (20_memory.md R52). Safe. -/
  | wrongWidth
  /-- Raised by a host write to a read-only register (20_memory.md R54). Safe. -/
  | readOnlyRegister
  /-- Raised by a host access while reset is asserted (70_reset_and_hazards.md R200,
  93_implementation_defined.md U9). Safe. -/
  | accessDuringReset
deriving DecidableEq, Repr

/-- The engine's state (10_state.md R38, complete by R37), then the model's own fields for what stands outside the
engine: the reset input, the port's accesses to come, the last read's value, and the two input ports. -/
structure State where
  /-- CMD (10_state.md R28). -/
  cmd : Word32
  /-- STATUS (R29). -/
  status : Status
  /-- TIME_OP (R26). -/
  timeOp : Word64
  /-- RES (R27). -/
  res : Word64
  /-- STR_LEN (R25). -/
  strLen : Word32
  /-- SEQ_CTRL (R31). -/
  seqCtrl : SeqCtrl
  /-- SEQ_TIME[47:0]; bits 63:48 always read 0 and have no storage (R32, log 7). -/
  seqTime : Time
  /-- BUF[0..15] (R22). -/
  buf : Bytes 16
  /-- SEQ_BUF[0..15] (R33). -/
  seqBuf : Bytes 16
  /-- STR[0..25] (R24). -/
  str : Bytes 26
  /-- THE MODEL'S OWN: the level of the reset input (log 5). -/
  resetAsserted : Bool
  /-- THE MODEL'S OWN: what the port has yet to perform, oldest first (log 1). -/
  pending : List PortEvent
  /-- THE MODEL'S OWN: the value of the last completed host read, zero-extended (log 4). -/
  readData : Option Word64
  /-- THE MODEL'S OWN: clock samples to come; when empty, free samples come (log 2). -/
  clockIn : List Time
  /-- THE MODEL'S OWN: how many clock samples have been taken (log 2). -/
  clockDraws : Nat
  /-- THE MODEL'S OWN: random draws to come; when empty, free draws come (log 3). -/
  randIn : List (Bytes 10)
  /-- THE MODEL'S OWN: how many random draws have been taken (log 3). -/
  randDraws : Nat
deriving DecidableEq, Repr

/-- The state when reset has been released and nothing has happened since (70_reset_and_hazards.md R200): every
register 0, every array all 0x00. The model's own fields: nothing pending, nothing read, no sample listed. -/
def State.reset : State where
  cmd := 0
  status := { err := none, sticky := false }
  timeOp := 0
  res := 0
  strLen := 0
  seqCtrl := { valid := false, mitigate := false, lastMode := .fresh }
  seqTime := 0
  buf := Vector.replicate 16 0
  seqBuf := Vector.replicate 16 0
  str := Vector.replicate 26 0
  resetAsserted := false
  pending := []
  readData := none
  clockIn := []
  clockDraws := 0
  randIn := []
  randDraws := 0

end Sys2Proof.Machine
end

