-- ==== Sys2Proof/Machine/Flags.lean ====
section
/-! DEFINITION. The status and control registers as words, and how a command's end writes STATUS. -/

namespace Sys2Proof.Machine

/-- The numeric codes of the errors (60_exceptions.md R180). -/
def Err.code : Err → Nat
  | .invalidLength => 1
  | .invalidCharacter => 2
  | .timestampOutOfRange => 3
  | .overflow => 4
  | .illegalCommand => 5

/-- STATUS.ERR as a number: 0 on success, else the error's code (10_state.md R29). -/
def errCode : Option Err → Nat
  | none => 0
  | some e => e.code

/-- STATUS as a host reads it: ERR in 2:0, STICKY in 3, 31:4 zero (10_state.md R29). -/
def statusWord (st : Status) : Word32 :=
  BitVec.ofNat 32 (errCode st.err) ||| (BitVec.ofBool st.sticky).setWidth 32 <<< 3

/-- LASTMODE's bit (10_state.md R31). -/
def Path.bit : Path → Bool
  | .fresh => false
  | .incrementing => true

/-- SEQ_CTRL as a host reads it: SEQ_VALID, MITIGATE, LASTMODE in 0, 1, 2, and 31:3 zero (10_state.md R31). -/
def seqCtrlWord (c : SeqCtrl) : Word32 :=
  (BitVec.ofBool c.valid).setWidth 32 ||| (BitVec.ofBool c.mitigate).setWidth 32 <<< 1 |||
    (BitVec.ofBool c.lastMode.bit).setWidth 32 <<< 2

/-- SEQ_TIME as a host reads it: 63:48 zero (10_state.md R32). -/
def seqTimeWord (t : Time) : Word64 := t.zeroExtend 64

/-- STATUS after a successful command: ERR 0, STICKY as it was (60_exceptions.md R181, 10_state.md R29). -/
def Status.afterSuccess (st : Status) : Status := { st with err := none }

/-- STATUS after a command that raised e: its code in ERR, and STICKY 1 whatever it was (60_exceptions.md R182). -/
def Status.afterError (e : Err) : Status := { err := some e, sticky := true }

end Sys2Proof.Machine
end

