-- ==== Sys2Proof/Machine/Ops.lean ====
section
/-! DEFINITION. The shared operations: numbers from bytes and bytes from numbers, the two input ports, and the two ends
of a command, success and `raise`. -/

namespace Sys2Proof.Machine

/-! Numbers and bytes (00_scope.md R10). -/

/-- The value of a list of digits, most significant first: the sum of `digit * base ^ (digits to its right)`. -/
def bigEndian (base : Nat) : List Nat → Nat
  | [] => 0
  | d :: ds => d * base ^ ds.length + bigEndian base ds

/-- `be(A[a..b])`, the big-endian unsigned value of bytes (00_scope.md R10). -/
def be (bs : List Byte) : Nat := bigEndian 256 (bs.map BitVec.toNat)

/-- `be_bytes(v)` into n bytes: byte j gets `v[8*(n-1-j)+7 : 8*(n-1-j)]` (00_scope.md R10). -/
def beBytes (n v : Nat) : Bytes n :=
  Vector.ofFn fun j : Fin n => BitVec.ofNat 8 (v >>> (8 * (n - 1 - j.val)))

/-- `zext_64(v)` of a number below 2^64 (00_scope.md R10). -/
def zext64 (v : Nat) : Word64 := BitVec.ofNat 64 v

/-! The clock port (60_exceptions.md R189): `sample_now()` is the value `clockNow s`, and the state goes on as
`consumeClock s`, so that no sample is used twice. -/

/-- The sample the clock port yields now: the first one the state lists, else a free one (log 2). -/
def State.clockNow (s : State) : Time :=
  match s.clockIn with
  | t :: _ => t
  | [] => Config.clockSample s.clockDraws

/-- The clock port after one sample. -/
def State.consumeClock (s : State) : State :=
  { s with clockIn := s.clockIn.tail, clockDraws := s.clockDraws + 1 }

/-! The random port (60_exceptions.md R190): `draw_rand80()` is the value `randomNow s`, and the state goes on as
`consumeRandom s`. -/

/-- The ten bytes the random port yields now: the first draw the state lists, else a free one (log 3). -/
def State.randomNow (s : State) : Bytes 10 :=
  match s.randIn with
  | r :: _ => r
  | [] => Config.randomDraw s.randDraws

/-- The random port after one draw. -/
def State.consumeRandom (s : State) : State :=
  { s with randIn := s.randIn.tail, randDraws := s.randDraws + 1 }

/-! The two ends of a command. -/

/-- A command reaches its end: the shadow copy becomes the state, and STATUS.ERR is 0 (00_scope.md R11,
60_exceptions.md R181). -/
def succeed (shadow : State) : Host.Outcome State Fault Refusal :=
  .next { shadow with status := shadow.status.afterSuccess }

/-- `raise e` (60_exceptions.md R182): the shadow copy is discarded, so s is the state the command found (what its
ports have yielded stays taken, log 6); STATUS.ERR gets the code and STICKY gets 1. The command ends, no control goes
anywhere, and there is nothing to return from (R187). -/
def raise (e : Err) (s : State) : Host.Outcome State Fault Refusal :=
  .next { s with status := Status.afterError e }

/-- The result register gets a value, zero-extended to all 64 bits (10_state.md R27). -/
def State.withRes (s : State) (v : Nat) : State := { s with res := zext64 v }

end Sys2Proof.Machine
end

