-- ==== Sys2Proof/Machine/Operands.lean ====
section
/-! DEFINITION. The identifier's field views and writes, the 80-bit increment and the time operand. -/

namespace Sys2Proof.Machine

/-- `V = be(B[0..15])`, an identifier's 128-bit value (10_state.md R22). -/
def bufValue (b : Bytes 16) : Nat := be b.toList

/-- The timestamp field `be(B[0..5])` (10_state.md R23). -/
def timeField (b : Bytes 16) : Nat := be (b.toList.take 6)

/-- The random segment `be(B[6..15])` (10_state.md R23). -/
def randField (b : Bytes 16) : Nat := be (b.toList.drop 6)

/-- `B[0..5] <- be_bytes(t)`, B[6..15] unchanged (41_identifier_buffer.md R111). -/
def withTime (b : Bytes 16) (t : Time) : Bytes 16 :=
  Vector.ofFn fun i : Fin 16 => if h : i.val < 6 then (beBytes 6 t.toNat)[i.val] else b[i.val]

/-- `B[6..15] <- r[0..9]`, B[0..5] unchanged: B[6+k] gets r[k] (41_identifier_buffer.md R113). -/
def withRand (b : Bytes 16) (r : Bytes 10) : Bytes 16 :=
  Vector.ofFn fun i : Fin 16 => if h : i.val < 6 then b[i.val] else r[i.val - 6]

/-- Sixteen zero bytes (41_identifier_buffer.md R110). -/
def zeroBuf : Bytes 16 := Vector.replicate 16 0

/-- A new identifier: both fields written (41_identifier_buffer.md R117). -/
def identifier (t : Time) (r : Bytes 10) : Bytes 16 := withRand (withTime zeroBuf t) r

/-- The loop of 41_identifier_buffer.md R114, from the last byte to the first: the carry starts at 1,
`s <- B[k] + carry`, `B[k] <- s mod 256`, `carry <- s div 256`. -/
def incBytes : List Byte → List Byte × Nat
  | [] => ([], 1)
  | x :: xs =>
    let (ys, carry) := incBytes xs
    let sum := x.toNat + carry
    (BitVec.ofNat 8 (sum % 256) :: ys, sum / 256)

theorem incBytes_length : ∀ xs : List Byte, (incBytes xs).1.length = xs.length
  | [] => rfl
  | _ :: xs => by simp [incBytes, incBytes_length xs]

/-- `inc80(B)`: the incremented bytes B[6..15] and the carry-out (41_identifier_buffer.md R114). -/
def inc80 (b : Bytes 16) : Bytes 10 × Bool :=
  let out := incBytes (b.toList.drop 6)
  (⟨⟨out.1⟩, by simp [out, incBytes_length]⟩, out.2 == 1)

/-- TIME_MAX = 2^48 - 1 (00_scope.md R7). -/
def timeMax : Nat := 2 ^ 48 - 1

/-- `trunc_48(TIME_OP)`: SET_TIME's operand, with no range check (10_state.md R26). -/
def timeOperand (s : State) : Time := s.timeOp.setWidth 48

/-- The requested time is above 2^48 - 1: MAKE's range check with S = 1 (10_state.md R26). -/
def timeOperandTooLarge (s : State) : Bool := decide (timeMax < s.timeOp.toNat)

end Sys2Proof.Machine
end

