-- ==== Sys2Proof/Machine/Codec.lean ====
section
/-! DEFINITION. The Base32 tables and the two functions between a 128-bit value and 26 characters. -/

namespace Sys2Proof.Machine

/-- ENC_TABLE, the characters of the values 0 to 31 (40_symbol_codec.md R100). -/
def encTable : Vector Byte 32 :=
  #v[0x30, 0x31, 0x32, 0x33, 0x34, 0x35, 0x36, 0x37, 0x38, 0x39,
     0x41, 0x42, 0x43, 0x44, 0x45, 0x46, 0x47, 0x48,
     0x4A, 0x4B, 0x4D, 0x4E,
     0x50, 0x51, 0x52, 0x53, 0x54,
     0x56, 0x57, 0x58, 0x59, 0x5A]

/-- `enc_sym(v)` (40_symbol_codec.md R101). -/
def encSym (v : BitVec 5) : Byte := encTable[v.toNat]

/-- One row of DEC_TABLE: the bytes lo to hi have the values first, first + 1, and so on. -/
structure DecRange where
  lo : Nat
  hi : Nat
  first : Nat
deriving DecidableEq, Repr

/-- DEC_TABLE by its byte ranges; every other byte is INVALID (40_symbol_codec.md R102, R103). -/
def decTable : List DecRange :=
  [⟨0x30, 0x39, 0⟩,
   ⟨0x41, 0x48, 10⟩, ⟨0x4A, 0x4B, 18⟩, ⟨0x4D, 0x4E, 20⟩, ⟨0x50, 0x54, 22⟩, ⟨0x56, 0x5A, 27⟩,
   ⟨0x61, 0x68, 10⟩, ⟨0x6A, 0x6B, 18⟩, ⟨0x6D, 0x6E, 20⟩, ⟨0x70, 0x74, 22⟩, ⟨0x76, 0x7A, 27⟩]

/-- `dec_sym(c)`, none for INVALID (40_symbol_codec.md R102). -/
def decSym (c : Byte) : Option (BitVec 5) :=
  match decTable.find? fun r => decide (r.lo ≤ c.toNat ∧ c.toNat ≤ r.hi) with
  | some r => some (BitVec.ofNat 5 (c.toNat - r.lo + r.first))
  | none => none

/-- `s_i = (V >> (125 - 5*i)) AND 31`, the symbol at position i (42_string_codec.md R140). -/
def symbolAt (v i : Nat) : BitVec 5 := BitVec.ofNat 5 (v >>> (125 - 5 * i))

/-- `enc128(V)`, the 26 characters of a 128-bit value (42_string_codec.md R140). -/
def enc128 (v : Nat) : Bytes 26 := Vector.ofFn fun i : Fin 26 => encSym (symbolAt v i.val)

/-- The values of a list of characters, none as soon as one is INVALID (42_string_codec.md R141's loop). -/
def decSyms : List Byte → Option (List (BitVec 5))
  | [] => some []
  | c :: cs =>
    match decSym c, decSyms cs with
    | some d, some ds => some (d :: ds)
    | _, _ => none

/-- The string value W of symbols, most significant first (00_scope.md R13). -/
def symbolsValue (ds : List (BitVec 5)) : Nat := bigEndian 32 (ds.map BitVec.toNat)

/-- `d_0 > 7` (42_string_codec.md R141). -/
def firstAboveSeven (ds : List (BitVec 5)) : Bool := (ds.take 1).any fun d => decide (7 < d.toNat)

/-- `dec130(STR, STR_LEN)`: the length first, then the characters, then the first symbol's bound
(42_string_codec.md R141, 60_exceptions.md R184). -/
def dec130 (str : Bytes 26) (len : Word32) : Except Err Nat :=
  if len.toNat ≠ 26 then .error .invalidLength
  else
    match decSyms str.toList with
    | none => .error .invalidCharacter
    | some ds => if firstAboveSeven ds then .error .invalidCharacter else .ok (symbolsValue ds)

end Sys2Proof.Machine
end

