-- ==== Sys2Proof/Machine/IdentifierBuffer.lean ====
section
/-! DEFINITION. The identifier buffer's commands (41_identifier_buffer.md). -/

namespace Sys2Proof.Machine

/-- CLEAR (41_identifier_buffer.md R110). -/
def execClear (s : State) : Host.Outcome State Fault Refusal := succeed { s with buf := zeroBuf }

/-- SET_TIME (41_identifier_buffer.md R111): TIME_OP is truncated, not refused. -/
def execSetTime (s : State) : Host.Outcome State Fault Refusal :=
  succeed { s with buf := withTime s.buf (timeOperand s) }

/-- GET_TIME (41_identifier_buffer.md R112). -/
def execGetTime (s : State) : Host.Outcome State Fault Refusal := succeed (s.withRes (timeField s.buf))

/-- SET_RAND (41_identifier_buffer.md R113): no bit is masked. -/
def execSetRand (s : State) : Host.Outcome State Fault Refusal :=
  succeed { s.consumeRandom with buf := withRand s.buf s.randomNow }

/-- INC (41_identifier_buffer.md R115). -/
def execInc (throwOnOverflow : Bool) (s : State) : Host.Outcome State Fault Refusal :=
  let (r, carry) := inc80 s.buf
  if carry && throwOnOverflow then raise .overflow s
  else succeed { s with buf := withRand s.buf r }

/-- VALID_BUF (41_identifier_buffer.md R116): every content of BUF is valid. -/
def execValidBuf (s : State) : Host.Outcome State Fault Refusal := succeed (s.withRes 1)

/-- The effect of ENCODE of b on STR and STR_LEN, when E = 1 (30_encoding.md R72, 42_string_codec.md R142). -/
def alsoEncode (e : Bool) (b : Bytes 16) (s : State) : State :=
  if e then { s with str := enc128 (bufValue b), strLen := 26 } else s

/-- MAKE once its time is known: one random draw, BUF whole, and STR with E = 1 (41_identifier_buffer.md R117). -/
def makeAt (e : Bool) (t : Time) (s : State) : Host.Outcome State Fault Refusal :=
  let b := identifier t s.randomNow
  succeed (alsoEncode e b { s.consumeRandom with buf := b })

/-- MAKE (41_identifier_buffer.md R117): with S = 1 the time is TIME_OP, checked before any draw; with S = 0 it is one
clock sample, which is never out of range. -/
def execMake (fromTimeOp e : Bool) (s : State) : Host.Outcome State Fault Refusal :=
  if fromTimeOp then
    if timeOperandTooLarge s then raise .timestampOutOfRange s
    else makeAt e (timeOperand s) s
  else makeAt e s.clockNow s.consumeClock

end Sys2Proof.Machine
end

