-- ==== Sys2Proof/Machine/Sequencer.lean ====
section
/-! DEFINITION. The monotonic sequencer's commands (43_sequencer.md). -/

namespace Sys2Proof.Machine

/-- SEQ_INIT (43_sequencer.md R161): a new, empty generator with MITIGATE = M. -/
def execSeqInit (mitigate : Bool) (s : State) : Host.Outcome State Fault Refusal :=
  succeed { s with
    seqBuf := zeroBuf
    seqTime := 0
    seqCtrl := { valid := false, mitigate := mitigate, lastMode := .fresh } }

/-- GEN_MONO takes the Fresh path exactly when SEQ_VALID = 0 or now > SEQ_TIME, unsigned (43_sequencer.md R163). -/
def freshPath (now : Time) (s : State) : Bool := !s.seqCtrl.valid || decide (s.seqTime.toNat < now.toNat)

/-- `b[6] <- b[6] AND 0x7F` when MITIGATE = 1 (43_sequencer.md R165). -/
def mitigated (mitigate : Bool) (b : Bytes 16) : Bytes 16 :=
  if mitigate then b.set 6 (b[6] &&& 0x7F) else b

/-- A successful GEN_MONO emits b: SEQ_BUF and BUF each get a copy, SEQ_TIME gets b's own timestamp, and STR the text
with E = 1 (43_sequencer.md R162, R168). -/
def emitIdentifier (e : Bool) (path : Path) (b : Bytes 16) (s : State) : Host.Outcome State Fault Refusal :=
  succeed (alsoEncode e b { s with
    seqBuf := b
    seqTime := BitVec.ofNat 48 (timeField b)
    seqCtrl := { s.seqCtrl with valid := true, lastMode := path }
    buf := b })

/-- GEN_MONO (43_sequencer.md R162): one clock sample; a random draw on the Fresh path only (R164); inc80 of SEQ_BUF on
the Incrementing path (R166), where a carry raises Overflow (R167). -/
def execGenMono (e : Bool) (s : State) : Host.Outcome State Fault Refusal :=
  let now := s.clockNow
  let sampled := s.consumeClock
  if freshPath now s then
    emitIdentifier e .fresh (mitigated s.seqCtrl.mitigate (identifier now sampled.randomNow)) sampled.consumeRandom
  else
    let (r, carry) := inc80 s.seqBuf
    if carry then raise .overflow sampled
    else emitIdentifier e .incrementing (withRand s.seqBuf r) sampled

end Sys2Proof.Machine
end

