-- ==== Sys2Proof/Machine/StringCodec.lean ====
section
/-! DEFINITION. The string codec's commands (42_string_codec.md). -/

namespace Sys2Proof.Machine

/-- ENCODE (42_string_codec.md R142): all 26 positions of STR, and STR_LEN. -/
def execEncode (s : State) : Host.Outcome State Fault Refusal :=
  succeed { s with str := enc128 (bufValue s.buf), strLen := 26 }

/-- DECODE (42_string_codec.md R143). -/
def execDecode (s : State) : Host.Outcome State Fault Refusal :=
  match dec130 s.str s.strLen with
  | .error e => raise e s
  | .ok v => succeed { s with buf := beBytes 16 v }

/-- VALID_STR (42_string_codec.md R144): never raises. -/
def execValidStr (s : State) : Host.Outcome State Fault Refusal :=
  match dec130 s.str s.strLen with
  | .error _ => succeed (s.withRes 0)
  | .ok _ => succeed (s.withRes 1)

end Sys2Proof.Machine
end

