-- ==== Sys2Proof/Machine/SymbolCodec.lean ====
section
/-! DEFINITION. The symbol codec's commands (40_symbol_codec.md). -/

namespace Sys2Proof.Machine

/-- SYM_ENC (40_symbol_codec.md R104). A term whose IMM8 is above 31 is not well formed: its word is illegal
(30_encoding.md R75), and it raises what that word raises (log 12). -/
def execSymEnc (imm8 : BitVec 8) (s : State) : Host.Outcome State Fault Refusal :=
  if imm8.toNat ≤ 31 then succeed (s.withRes (encSym (imm8.setWidth 5)).toNat)
  else raise .illegalCommand s

/-- SYM_DEC (40_symbol_codec.md R105): no first-position rule here. -/
def execSymDec (imm8 : BitVec 8) (s : State) : Host.Outcome State Fault Refusal :=
  match decSym imm8 with
  | some d => succeed (s.withRes d.toNat)
  | none => raise .invalidCharacter s

end Sys2Proof.Machine
end

