-- ==== Sys2Proof/Machine/Dispatch.lean ====
section
/-! DEFINITION. One arm per command, each a call of its meaning. -/

namespace Sys2Proof.Machine

def exec (i : Instr) (s : State) : Host.Outcome State Fault Refusal :=
  match i with
  -- 40_symbol_codec.md
  | .symEnc imm8 => Sys2Proof.Machine.execSymEnc imm8 s
  | .symDec imm8 => Sys2Proof.Machine.execSymDec imm8 s
  -- 41_identifier_buffer.md
  | .clear => Sys2Proof.Machine.execClear s
  | .setTime => Sys2Proof.Machine.execSetTime s
  | .getTime => Sys2Proof.Machine.execGetTime s
  | .setRand => Sys2Proof.Machine.execSetRand s
  | .inc t => Sys2Proof.Machine.execInc t s
  | .validBuf => Sys2Proof.Machine.execValidBuf s
  | .make src e => Sys2Proof.Machine.execMake src e s
  -- 42_string_codec.md
  | .encodeStr => Sys2Proof.Machine.execEncode s
  | .decodeStr => Sys2Proof.Machine.execDecode s
  | .validStr => Sys2Proof.Machine.execValidStr s
  -- 43_sequencer.md
  | .seqInit m => Sys2Proof.Machine.execSeqInit m s
  | .genMono e => Sys2Proof.Machine.execGenMono e s

end Sys2Proof.Machine
end

