-- ==== Sys2Proof/Machine/HostPort.lean ====
section
/-! DEFINITION. The register window: its map, host reads and writes, a write of CMD, and the reset input. -/

namespace Sys2Proof.Machine

/-- A register a host can name, or one byte of an array (20_memory.md R51). -/
inductive Reg
  | cmd
  | status
  | timeOp
  | res
  | now
  | strLen
  | seqCtrl
  | seqTime
  | buf (i : Fin 16)
  | seqBuf (i : Fin 16)
  | str (i : Fin 26)
deriving DecidableEq, Repr

/-- The window offset of a register (20_memory.md R51). -/
def Reg.offset : Reg → Nat
  | .cmd => 0x00
  | .status => 0x04
  | .timeOp => 0x08
  | .res => 0x10
  | .now => 0x18
  | .strLen => 0x20
  | .seqCtrl => 0x24
  | .seqTime => 0x28
  | .buf i => 0x30 + i.val
  | .seqBuf i => 0x40 + i.val
  | .str i => 0x50 + i.val

/-- The width in bytes of the only access that reaches a register (20_memory.md R51, R52). -/
def Reg.width : Reg → Nat
  | .cmd => 4
  | .status => 4
  | .timeOp => 8
  | .res => 8
  | .now => 8
  | .strLen => 4
  | .seqCtrl => 4
  | .seqTime => 8
  | .buf _ => 1
  | .seqBuf _ => 1
  | .str _ => 1

/-- The register that begins at a window offset (20_memory.md R51). -/
def regAt (off : Nat) : Option Reg :=
  if off = 0x00 then some .cmd
  else if off = 0x04 then some .status
  else if off = 0x08 then some .timeOp
  else if off = 0x10 then some .res
  else if off = 0x18 then some .now
  else if off = 0x20 then some .strLen
  else if off = 0x24 then some .seqCtrl
  else if off = 0x28 then some .seqTime
  else if h : 0x30 ≤ off ∧ off < 0x40 then some (.buf ⟨off - 0x30, by omega⟩)
  else if h : 0x40 ≤ off ∧ off < 0x50 then some (.seqBuf ⟨off - 0x40, by omega⟩)
  else if h : 0x50 ≤ off ∧ off < 0x6A then some (.str ⟨off - 0x50, by omega⟩)
  else none

/-- The register an n-byte access at a window offset reaches, or why it is a host access fault
(20_memory.md R52, R53; which name an access with several faults gets is the model's own, log 13). -/
def accessTarget (off n : Nat) : Except Refusal Reg :=
  if 0x80 ≤ off then .error .outsideWindow
  else if 0x6A ≤ off then .error .reservedOffset
  else
    match regAt off with
    | none => .error .misaligned
    | some r => if n = r.width then .ok r else .error .wrongWidth

/-- A register's value as a host reads it, zero-extended (20_memory.md R55). NOW is a sample of the clock port
(10_state.md R35). -/
def readReg (r : Reg) (s : State) : Word64 :=
  match r with
  | .cmd => s.cmd.setWidth 64
  | .status => (statusWord s.status).setWidth 64
  | .timeOp => s.timeOp
  | .res => s.res
  | .now => s.clockNow.setWidth 64
  | .strLen => s.strLen.setWidth 64
  | .seqCtrl => (seqCtrlWord s.seqCtrl).setWidth 64
  | .seqTime => seqTimeWord s.seqTime
  | .buf i => s.buf[i].setWidth 64
  | .seqBuf i => s.seqBuf[i].setWidth 64
  | .str i => s.str[i].setWidth 64

/-- What a read takes from the input ports: NOW takes one clock sample, no other read takes anything
(20_memory.md R55). -/
def afterRead (r : Reg) (s : State) : State :=
  match r with
  | .now => s.consumeClock
  | .cmd => s
  | .status => s
  | .timeOp => s
  | .res => s
  | .strLen => s
  | .seqCtrl => s
  | .seqTime => s
  | .buf _ => s
  | .seqBuf _ => s
  | .str _ => s

/-- `MemRead(off, n)` (20_memory.md R55). -/
def hostRead (off n : Nat) (s : State) : Host.Outcome State Fault Refusal :=
  match accessTarget off n with
  | .error why => .refused why
  | .ok r => .next { afterRead r s with readData := some (readReg r s) }

/-- A word written to CMD: stored, then executed as one command; an illegal word raises IllegalCommand
(10_state.md R28, 20_memory.md R56, 30_encoding.md R75). -/
def executeCommand (w : Word32) (s : State) : Host.Outcome State Fault Refusal :=
  match decode w with
  | .ok i => exec i { s with cmd := w }
  | .error _ => raise .illegalCommand { s with cmd := w }

/-- A full-width write of a register (20_memory.md R54, R56). The bus carries as many bytes of v as the register has
(log 14). -/
def writeReg (r : Reg) (v : Nat) (s : State) : Host.Outcome State Fault Refusal :=
  match r with
  | .cmd => executeCommand (BitVec.ofNat 32 v) s
  | .timeOp => .next { s with timeOp := BitVec.ofNat 64 v }
  | .strLen => .next { s with strLen := BitVec.ofNat 32 v }
  | .buf i => .next { s with buf := s.buf.set i (BitVec.ofNat 8 v) }
  | .str i => .next { s with str := s.str.set i (BitVec.ofNat 8 v) }
  | .status => .refused .readOnlyRegister
  | .res => .refused .readOnlyRegister
  | .now => .refused .readOnlyRegister
  | .seqCtrl => .refused .readOnlyRegister
  | .seqTime => .refused .readOnlyRegister
  | .seqBuf _ => .refused .readOnlyRegister

/-- `MemWrite(off, n, v)` (20_memory.md R56). -/
def hostWrite (off n v : Nat) (s : State) : Host.Outcome State Fault Refusal :=
  match accessTarget off n with
  | .error why => .refused why
  | .ok r => writeReg r v s

/-- Every register of the engine at its reset value (70_reset_and_hazards.md R200); what stands outside the engine is
as it was. -/
def resetRegisters (s : State) : State :=
  { State.reset with
    resetAsserted := s.resetAsserted
    pending := s.pending
    readData := s.readData
    clockIn := s.clockIn
    clockDraws := s.clockDraws
    randIn := s.randIn
    randDraws := s.randDraws }

/-- The reset input takes a level; on its release every register holds its reset value (70_reset_and_hazards.md R200,
log 5). -/
def setResetLine (asserted : Bool) (s : State) : State :=
  if s.resetAsserted && !asserted then { resetRegisters s with resetAsserted := false }
  else { s with resetAsserted := asserted }

/-- A host access; none is accepted while reset is asserted (70_reset_and_hazards.md R200). -/
def performAccess (a : HostAccess) (s : State) : Host.Outcome State Fault Refusal :=
  if s.resetAsserted then .refused .accessDuringReset
  else
    match a with
    | .read off n => hostRead off n s
    | .write off n v => hostWrite off n v s

/-- One event at the engine's port. -/
def performEvent (ev : PortEvent) (s : State) : Host.Outcome State Fault Refusal :=
  match ev with
  | .access a => performAccess a s
  | .resetLine asserted => .next (setResetLine asserted s)

/-- The window offset of a platform address, none outside the window (20_memory.md R50, log 10). -/
def windowOffset (addr : Nat) : Option Nat :=
  if Config.engineBase ≤ addr ∧ addr < Config.engineBase + 0x80 then some (addr - Config.engineBase) else none

end Sys2Proof.Machine
end

