-- ==== Sys2Proof/Machine/Step.lean ====
section
/-! DEFINITION. One step: the port performs its next event. -/

namespace Sys2Proof.Machine

/-- The engine performs the oldest pending event, in the order the port received them (20_memory.md R62); with nothing
pending it waits, and nothing changes (70_reset_and_hazards.md R201). -/
def step (s : State) : Host.Outcome State Fault Refusal :=
  match s.pending with
  | [] => .next s
  | ev :: rest => performEvent ev { s with pending := rest }

/-- The state whose next step is the host's write of a word to CMD: the engine fetches nothing, so this is how a
command comes to run (00_scope.md R6, log 15). The write comes before what was pending, with reset released; all bits
from `nbits` on are 0. -/
def State.withFetchWord (s : State) (nbits w : Nat) : State :=
  { s with
    resetAsserted := false
    pending := .access (.write 0x00 4 (w % 2 ^ nbits)) :: s.pending }

end Sys2Proof.Machine
end

