-- ==== Sys2Proof/Machine/HostProgram.lean ====
section
/-! DEFINITION. Host programs as sequences of accesses, and the pseudo-instructions (30_encoding.md R78, R79). -/

namespace Sys2Proof.Machine

/-- A line of a host program: one access, one command, or a pseudo-instruction (30_encoding.md R78, R79). -/
inductive HostLine
  | rd8 (off : Nat)
  | rd32 (off : Nat)
  | rd64 (off : Nat)
  | wr8 (off v : Nat)
  | wr32 (off v : Nat)
  | wr64 (off v : Nat)
  /-- A line holding only a command mnemonic. -/
  | command (i : Instr)
  /-- `MAKE_STR`, `MAKE_STR.S`. -/
  | makeStr (fromTimeOp : Bool)
  | genStr
  /-- `LOADSTR "s"`, by the bytes of s. -/
  | loadStr (chars : List Byte)
  /-- `SETTIME t`. -/
  | setTime (t : Nat)
  /-- `CLONE`. -/
  | clone
deriving DecidableEq, Repr

/-- A command line stands for `WR32 CMD, <its encoding>` (30_encoding.md R78). -/
def commandAccess (i : Instr) : HostAccess := .write 0x00 4 (encode i).toNat

/-- `WR8 STR+i, s[i]` for the characters of a list from position i on. -/
def strWrites : Nat → List Byte → List HostAccess
  | _, [] => []
  | i, c :: cs => .write (0x50 + i) 1 c.toNat :: strWrites (i + 1) cs

/-- The accesses a line stands for (30_encoding.md R78, R79). -/
def HostLine.accesses : HostLine → List HostAccess
  | .rd8 off => [.read off 1]
  | .rd32 off => [.read off 4]
  | .rd64 off => [.read off 8]
  | .wr8 off v => [.write off 1 v]
  | .wr32 off v => [.write off 4 v]
  | .wr64 off v => [.write off 8 v]
  | .command i => [commandAccess i]
  | .makeStr s => [commandAccess (.make s true)]
  | .genStr => [commandAccess (.genMono true)]
  | .loadStr chars => .write 0x20 4 chars.length :: strWrites 0 (chars.take 26)
  | .setTime t => [.write 0x08 8 t, commandAccess .setTime]
  | .clone => (List.range 16).map fun i => .read (0x30 + i) 1

/-- The accesses of a host program, in its lines' order. -/
def programAccesses : List HostLine → List HostAccess
  | [] => []
  | l :: ls => l.accesses ++ programAccesses ls

/-- The state in which the port will perform a host program's accesses after those already pending. -/
def State.withProgram (s : State) (p : List HostLine) : State :=
  { s with pending := s.pending ++ (programAccesses p).map .access }

end Sys2Proof.Machine
end

