-- ==== Sys2Proof/Machine/Windows.lean ====
section
/-! DEFINITION. The spec's two bit tables of the string codec, as data: which bits of BUF's bytes make each symbol
(42_string_codec.md R140) and which bits of the symbols make each byte (R141). The formulas `enc128` and `dec130` are
what the commands use; the tables are there to be proved equal to them. -/

namespace Sys2Proof.Machine

/-- A run of bits hi:lo of element `index` of an array. -/
structure Piece where
  index : Nat
  hi : Nat
  lo : Nat
deriving DecidableEq, Repr

/-- `v[hi:lo]` (00_scope.md R9). -/
def bitRange (v hi lo : Nat) : Nat := (v >>> lo) % 2 ^ (hi + 1 - lo)

/-- `x ++ y ++ ...` of pieces of an array of numbers, the first one highest (42_string_codec.md R140). -/
def piecesValue (a : List Nat) (ps : List Piece) : Nat :=
  ps.foldl (fun acc p => acc * 2 ^ (p.hi + 1 - p.lo) + bitRange (a.getD p.index 0) p.hi p.lo) 0

/-- The table of R140: position i's window in BUF's bytes. -/
def windowPieces : List (List Piece) :=
  [[⟨0, 7, 5⟩], [⟨0, 4, 0⟩], [⟨1, 7, 3⟩], [⟨1, 2, 0⟩, ⟨2, 7, 6⟩], [⟨2, 5, 1⟩], [⟨2, 0, 0⟩, ⟨3, 7, 4⟩],
   [⟨3, 3, 0⟩, ⟨4, 7, 7⟩], [⟨4, 6, 2⟩], [⟨4, 1, 0⟩, ⟨5, 7, 5⟩], [⟨5, 4, 0⟩]] ++
  [[⟨6, 7, 3⟩], [⟨6, 2, 0⟩, ⟨7, 7, 6⟩], [⟨7, 5, 1⟩], [⟨7, 0, 0⟩, ⟨8, 7, 4⟩], [⟨8, 3, 0⟩, ⟨9, 7, 7⟩],
   [⟨9, 6, 2⟩], [⟨9, 1, 0⟩, ⟨10, 7, 5⟩], [⟨10, 4, 0⟩]] ++
  [[⟨11, 7, 3⟩], [⟨11, 2, 0⟩, ⟨12, 7, 6⟩], [⟨12, 5, 1⟩], [⟨12, 0, 0⟩, ⟨13, 7, 4⟩], [⟨13, 3, 0⟩, ⟨14, 7, 7⟩],
   [⟨14, 6, 2⟩], [⟨14, 1, 0⟩, ⟨15, 7, 5⟩], [⟨15, 4, 0⟩]]

/-- The table of R141: BUF[j]'s bits in the symbols. -/
def bytePieces : List (List Piece) :=
  [[⟨0, 2, 0⟩, ⟨1, 4, 0⟩], [⟨2, 4, 0⟩, ⟨3, 4, 2⟩], [⟨3, 1, 0⟩, ⟨4, 4, 0⟩, ⟨5, 4, 4⟩], [⟨5, 3, 0⟩, ⟨6, 4, 1⟩],
   [⟨6, 0, 0⟩, ⟨7, 4, 0⟩, ⟨8, 4, 3⟩], [⟨8, 2, 0⟩, ⟨9, 4, 0⟩], [⟨10, 4, 0⟩, ⟨11, 4, 2⟩],
   [⟨11, 1, 0⟩, ⟨12, 4, 0⟩, ⟨13, 4, 4⟩]] ++
  [[⟨13, 3, 0⟩, ⟨14, 4, 1⟩], [⟨14, 0, 0⟩, ⟨15, 4, 0⟩, ⟨16, 4, 3⟩], [⟨16, 2, 0⟩, ⟨17, 4, 0⟩],
   [⟨18, 4, 0⟩, ⟨19, 4, 2⟩], [⟨19, 1, 0⟩, ⟨20, 4, 0⟩, ⟨21, 4, 4⟩], [⟨21, 3, 0⟩, ⟨22, 4, 1⟩],
   [⟨22, 0, 0⟩, ⟨23, 4, 0⟩, ⟨24, 4, 3⟩], [⟨24, 2, 0⟩, ⟨25, 4, 0⟩]]

/-- The symbol at position i, by the table of R140. -/
def windowSymbol (b : Bytes 16) (i : Nat) : Nat :=
  piecesValue (b.toList.map BitVec.toNat) (windowPieces.getD i [])

/-- BUF[j] from the symbols, by the table of R141. -/
def byteFromSymbols (ds : List (BitVec 5)) (j : Nat) : Nat :=
  piecesValue (ds.map BitVec.toNat) (bytePieces.getD j [])

end Sys2Proof.Machine
end

