-- ==== Sys2Proof/Safety.lean ====
section
/-! DEFINITION. The terms the claims are stated in: the spec's tables as data, the sequencer's invariant, and what it
means for steps to keep one generator running. -/

namespace Sys2Proof.Machine

/-- A row of the opcode map (30_encoding.md R74). -/
structure OpcodeRow where
  mnemonic : String
  matchWord : Word32
  mask : Word32
deriving DecidableEq, Repr

/-- The opcode map, as R74 prints it. -/
def opcodeMap : List OpcodeRow :=
  [⟨"SYM_ENC", 0x00000001, 0xFFE0FFFF⟩, ⟨"SYM_DEC", 0x00000002, 0xFF00FFFF⟩, ⟨"CLEAR", 0x00000010, 0xFFFFFFFF⟩,
   ⟨"SET_TIME", 0x00000011, 0xFFFFFFFF⟩, ⟨"GET_TIME", 0x00000012, 0xFFFFFFFF⟩,
   ⟨"SET_RAND", 0x00000013, 0xFFFFFFFF⟩, ⟨"INC", 0x00000014, 0xFFFFFEFF⟩, ⟨"VALID_BUF", 0x00000015, 0xFFFFFFFF⟩,
   ⟨"MAKE", 0x00000016, 0xFFFFF9FF⟩, ⟨"ENCODE", 0x00000020, 0xFFFFFFFF⟩, ⟨"DECODE", 0x00000021, 0xFFFFFFFF⟩,
   ⟨"VALID_STR", 0x00000022, 0xFFFFFFFF⟩, ⟨"SEQ_INIT", 0x00000030, 0xFFFFF7FF⟩,
   ⟨"GEN_MONO", 0x00000031, 0xFFFFFBFF⟩]

/-- A word matches a row (30_encoding.md R75). -/
def OpcodeRow.matchesWord (row : OpcodeRow) (w : Word32) : Prop := w &&& row.mask = row.matchWord

/-- The mnemonic of a command's row (30_encoding.md R74). -/
def rowName : Instr → String
  | .symEnc _ => "SYM_ENC"
  | .symDec _ => "SYM_DEC"
  | .clear => "CLEAR"
  | .setTime => "SET_TIME"
  | .getTime => "GET_TIME"
  | .setRand => "SET_RAND"
  | .inc _ => "INC"
  | .validBuf => "VALID_BUF"
  | .make _ _ => "MAKE"
  | .encodeStr => "ENCODE"
  | .decodeStr => "DECODE"
  | .validStr => "VALID_STR"
  | .seqInit _ => "SEQ_INIT"
  | .genMono _ => "GEN_MONO"

/-- The registers a host may write (10_state.md R38, 20_memory.md R51). -/
def Reg.hostWritable : Reg → Bool
  | .cmd => true
  | .timeOp => true
  | .strLen => true
  | .buf _ => true
  | .str _ => true
  | .status => false
  | .res => false
  | .now => false
  | .seqCtrl => false
  | .seqTime => false
  | .seqBuf _ => false

/-- The registers of STR, written by ENCODE and by MAKE and GEN_MONO with E = 1 (10_state.md R38). -/
def Reg.ofString : Reg → Bool
  | .strLen => true
  | .str _ => true
  | _ => false

/-- The sequencer's registers (43_sequencer.md R160). -/
def Reg.ofSequencer : Reg → Bool
  | .seqCtrl => true
  | .seqTime => true
  | .seqBuf _ => true
  | _ => false

/-- The bytes of BUF. -/
def Reg.ofBuf : Reg → Bool
  | .buf _ => true
  | _ => false

/-- The timestamp field's bytes BUF[0..5] (10_state.md R23). -/
def Reg.ofTimeField : Reg → Bool
  | .buf i => decide (i.val < 6)
  | _ => false

/-- The random segment's bytes BUF[6..15] (10_state.md R23). -/
def Reg.ofRandField : Reg → Bool
  | .buf i => decide (6 ≤ i.val)
  | _ => false

/-- The registers a command may write besides STATUS (10_state.md R38, column "written by commands"; for SET_TIME,
SET_RAND and INC the field of BUF their rules name, 41_identifier_buffer.md R111, R113, R115). -/
def mayWrite (i : Instr) (r : Reg) : Bool :=
  match i with
  | .symEnc _ => r == .res
  | .symDec _ => r == .res
  | .clear => r.ofBuf
  | .setTime => r.ofTimeField
  | .getTime => r == .res
  | .setRand => r.ofRandField
  | .inc _ => r.ofRandField
  | .validBuf => r == .res
  | .make _ e => r.ofBuf || (e && r.ofString)
  | .encodeStr => r.ofString
  | .decodeStr => r.ofBuf
  | .validStr => r == .res
  | .seqInit _ => r.ofSequencer
  | .genMono e => r.ofSequencer || r.ofBuf || (e && r.ofString)

/-- The error a legal command can raise (60_exceptions.md R183). -/
def mayRaise (i : Instr) (e : Err) : Bool :=
  match i with
  | .symDec _ => e == .invalidCharacter
  | .inc t => t && e == .overflow
  | .make s _ => s && e == .timestampOutOfRange
  | .decodeStr => e == .invalidLength || e == .invalidCharacter
  | .genMono _ => e == .overflow
  | .symEnc _ => false
  | .clear => false
  | .setTime => false
  | .getTime => false
  | .setRand => false
  | .validBuf => false
  | .encodeStr => false
  | .validStr => false
  | .seqInit _ => false

/-- The commands that sample the clock port (60_exceptions.md R189). -/
def samplesClock : Instr → Bool
  | .make s _ => !s
  | .genMono _ => true
  | .symEnc _ => false
  | .symDec _ => false
  | .clear => false
  | .setTime => false
  | .getTime => false
  | .setRand => false
  | .inc _ => false
  | .validBuf => false
  | .encodeStr => false
  | .decodeStr => false
  | .validStr => false
  | .seqInit _ => false

/-- The command takes a random draw in this state (60_exceptions.md R190): SET_RAND, MAKE when its time is accepted, and
GEN_MONO on the Fresh path. -/
def takesDraw (i : Instr) (s : State) : Bool :=
  match i with
  | .setRand => true
  | .make src _ => !(src && timeOperandTooLarge s)
  | .genMono _ => freshPath s.clockNow s
  | .symEnc _ => false
  | .symDec _ => false
  | .clear => false
  | .setTime => false
  | .getTime => false
  | .inc _ => false
  | .validBuf => false
  | .encodeStr => false
  | .decodeStr => false
  | .validStr => false
  | .seqInit _ => false

/-- The sequencer's invariant: SEQ_TIME is SEQ_BUF's own timestamp (10_state.md R34), and an empty sequencer holds
zero, as reset and SEQ_INIT leave it (43_sequencer.md R160, R161). -/
structure SequencerInv (s : State) : Prop where
  ownTimestamp : s.seqTime.toNat = timeField s.seqBuf
  emptyIsZero : s.seqCtrl.valid = false → s.seqBuf = zeroBuf ∧ s.seqCtrl.lastMode = .fresh

/-- An upper-case letter or a digit for a character of the alphabet in either case (40_symbol_codec.md R102). -/
def upperCase (c : Byte) : Byte := if 0x61 ≤ c.toNat ∧ c.toNat ≤ 0x7A then c - 0x20 else c

/-- STATUS after a command that succeeded: ERR 0, STICKY unchanged (60_exceptions.md R181). -/
def endsOk (s t : State) : Prop := t.status = { err := none, sticky := s.status.sticky }

/-- The state after a command that raised e and changed nothing but STATUS (60_exceptions.md R182). -/
def withError (e : Err) (s : State) : State := { s with status := { err := some e, sticky := true } }

/-- STR and STR_LEN after MAKE or GEN_MONO: with E = 1 the text of the new BUF and 26, else as before
(30_encoding.md R72). -/
def textWritten (e : Bool) (s t : State) : Prop :=
  (e = true → t.str = enc128 (bufValue t.buf) ∧ t.strLen = 26) ∧ (e = false → t.str = s.str ∧ t.strLen = s.strLen)

/-- STR holds a canonical string (00_scope.md R15): 26 upper-case alphabet characters, the first symbol at most 7. -/
def canonicalString (s : State) : Prop :=
  s.strLen = 26 ∧ (∀ i : Fin 26, ∃ v : BitVec 5, s.str[i] = encSym v) ∧ ∃ v : BitVec 5, s.str[0] = encSym v ∧ v.toNat ≤ 7

/-- The next event gives up the generator: the reset input changes, or SEQ_INIT is written (43_sequencer.md R169). -/
def endsGenerator (s : State) : Bool :=
  match s.pending with
  | .resetLine _ :: _ => true
  | .access (.write 0 4 v) :: _ =>
    match decode (BitVec.ofNat 32 v) with
    | .ok (.seqInit _) => true
    | _ => false
  | _ => false

/-- The step from s to t is a successful GEN_MONO. -/
def emits (s t : State) : Prop :=
  ∃ v e rest, s.pending = .access (.write 0 4 v) :: rest ∧ decode (BitVec.ofNat 32 v) = .ok (.genMono e) ∧
    step s = .next t ∧ t.status.err = none

/-- Steps from a first state to a last one, each of which P allows. -/
inductive Steps (P : State → State → Prop) : State → State → Prop
  | refl (s : State) : Steps P s s
  | tail {s t u : State} (before : Steps P s t) (now : step t = .next u) (allowed : P t u) : Steps P s u

/-- Steps with no reset and no SEQ_INIT among them. -/
def sameGenerator : State → State → Prop := Steps fun t _ => endsGenerator t = false

/-- Steps with no reset, no SEQ_INIT and no successful GEN_MONO among them. -/
def nothingEmitted : State → State → Prop := Steps fun t u => endsGenerator t = false ∧ ¬ emits t u

/-- The clock port after n more samples. -/
def clockAfter : Nat → State → State
  | 0, s => s
  | n + 1, s => clockAfter n s.consumeClock

/-- The sample the clock port yields after n more samples. -/
def clockAhead (n : Nat) (s : State) : Time := (clockAfter n s).clockNow

/-- The same command k times in a row. -/
def execTimes (i : Instr) : Nat → State → Host.Outcome State Fault Refusal
  | 0, s => .next s
  | k + 1, s =>
    match exec i s with
    | .next t => execTimes i k t
    | .fault f => .fault f
    | .refused r => .refused r

end Sys2Proof.Machine
end

