-- ==== Sys2Proof/Certificates/Slice0/Obligations.lean ====
section
/-! DEFINITION. The statements about the model. Each docstring names the spec's sentence or, for a `derived` one, what it
rests on. -/

open Sys2Proof Sys2Proof.Machine

/-! The command word. -/

/-- 30_encoding.md section 2: decoding gives back every well-formed command from its word, at every operand. -/
def Obligations.DecodeOfEncodeIsTheCommand : Prop :=
  ∀ i : Instr, i.wellFormed = true → decode (encode i) = .ok i

/-- 30_encoding.md section 2: a legal word is the word of the command it decodes to, and that command is well formed. -/
def Obligations.EncodeOfDecodeIsTheWord : Prop :=
  ∀ (w : Word32) (i : Instr), decode w = .ok i → encode i = w ∧ i.wellFormed = true

/-- 30_encoding.md R75: a word is legal exactly when some row of R74 has `(w AND mask) = match`, at most one row does,
that row's command executes, and an illegal word raises IllegalCommand and changes only STATUS (and CMD, which the write
stored). Illegal are the words whose OP no row has, and those with a bit from 8 up set that their OP's row does not list
as free. -/
def Obligations.LegalWordsAreTheOpcodeMap : Prop :=
  ∀ w : Word32,
    ((∃ i, decode w = .ok i) ↔ ∃ row ∈ opcodeMap, row.matchesWord w) ∧
    (∀ row ∈ opcodeMap, ∀ row' ∈ opcodeMap, row.matchesWord w → row'.matchesWord w → row = row') ∧
    (∀ i, decode w = .ok i → (∃ row ∈ opcodeMap, row.matchesWord w ∧ row.mnemonic = rowName i) ∧
      ∀ s : State, executeCommand w s = exec i { s with cmd := w }) ∧
    (∀ s : State, (∀ row ∈ opcodeMap, ¬ row.matchesWord w) →
      executeCommand w s = .next (withError .illegalCommand { s with cmd := w })) ∧
    ((∀ row ∈ opcodeMap, opField row.matchWord ≠ opField w) → ∀ row ∈ opcodeMap, ¬ row.matchesWord w) ∧
    (∀ row ∈ opcodeMap, opField row.matchWord = opField w → ∀ k : Fin 32, 8 ≤ k.val → row.mask.getLsbD k = true →
      w.getLsbD k = true → ∀ row' ∈ opcodeMap, ¬ row'.matchesWord w)

/-- 30_encoding.md R77 (its encodings are derived there) and the patterns of section 2: a word of each family, written
out. -/
def Obligations.SampleWordsDecode : Prop :=
  decode 0b00000000000111110000000000000001#32 = .ok (.symEnc 31) ∧
  decode 0b00000000010000010000000000000010#32 = .ok (.symDec 0x41) ∧
  decode 0b00000000000000000000000100010100#32 = .ok (.inc true) ∧
  decode 0b00000000000000000000011000010110#32 = .ok (.make true true) ∧
  decode 0b00000000000000000000000000100000#32 = .ok .encodeStr ∧
  decode 0b00000000000000000000000000100001#32 = .ok .decodeStr ∧
  decode 0b00000000000000000000100000110000#32 = .ok (.seqInit true) ∧
  decode 0b00000000000000000000010000110001#32 = .ok (.genMono true)

/-! The step and the reset input. -/

/-- 10_state.md R28: a host write of a word to CMD stores the word and executes it as one command; a read returns the
last word written and has no side effect. -/
def Obligations.WritingCmdRunsTheDecodedCommand : Prop :=
  ∀ (s : State) (rest : List PortEvent) (w : Word32), s.resetAsserted = false →
    (s.pending = .access (.write 0 4 w.toNat) :: rest →
      (∀ i, decode w = .ok i → step s = exec i { s with pending := rest, cmd := w }) ∧
      (∀ why, decode w = .error why →
        step s = .next (withError .illegalCommand { s with pending := rest, cmd := w })) ∧
      (∃ t, step s = .next t ∧ t.cmd = w)) ∧
    (s.pending = .access (.read 0 4) :: rest →
      step s = .next { s with pending := rest, readData := some (s.cmd.setWidth 64) })

/-- 30_encoding.md R76: a word with an opcode that is not in the map raises IllegalCommand, and so does every other
unlisted word: none is a no-op. -/
def Obligations.ReservedOpcodesRaiseIllegalCommand : Prop :=
  ∀ (s : State) (rest : List PortEvent) (w : Word32), s.resetAsserted = false →
    s.pending = .access (.write 0 4 w.toNat) :: rest →
    ((∀ row ∈ opcodeMap, opField row.matchWord ≠ opField w) ∨ ∀ row ∈ opcodeMap, ¬ row.matchesWord w) →
    step s = .next (withError .illegalCommand { s with pending := rest, cmd := w })

/-- 70_reset_and_hazards.md section 1 and 10_state.md section 7: every register reads 0 right after reset, NOW (an
input) apart. -/
def Obligations.EveryRegisterReadsZeroAfterReset : Prop :=
  ∀ r : Reg, r ≠ .now → readReg r State.reset = 0

/-- 70_reset_and_hazards.md section 1: the reset input can be asserted; while it is, no host access is accepted; when it is
released every register holds its reset value, and no command has executed. The model's choices here: the input is a level
that the event sets, and the events to come and the last read's value stay (log 5); every access is refused under one
name (log 13). -/
def Obligations.ResetInputRestoresEveryRegister : Prop :=
  ∀ (s : State) (rest : List PortEvent),
    (s.pending = .resetLine true :: rest → ∃ t, step s = .next t ∧ t.resetAsserted = true ∧ t.pending = rest) ∧
    (∀ a, s.resetAsserted = true → s.pending = .access a :: rest → step s = .refused .accessDuringReset) ∧
    (s.resetAsserted = true → s.pending = .resetLine false :: rest →
      ∃ t, step s = .next t ∧ (∀ r : Reg, r ≠ .now → readReg r t = 0) ∧ t.status = State.reset.status ∧
        t.resetAsserted = false ∧ t.pending = rest ∧ t.readData = s.readData)

/-- 70_reset_and_hazards.md section 1 ("After reset it waits for host accesses"); that waiting is a step that changes
nothing is the model's choice, log 1. -/
def Obligations.WithNothingPendingTheEngineWaits : Prop :=
  ∀ s : State, s.pending = [] → step s = .next s

/-- 20_memory.md section 4: events are performed one at a time, oldest first. A completed step takes exactly the oldest
event off the list, and what it does depends on that event and not on those behind it: with any others behind it the step
leaves the same state but for them. (The port's list is the model's, log 1.) -/
def Obligations.EventsArePerformedInPortOrder : Prop :=
  ∀ (s t : State) (ev : PortEvent) (rest : List PortEvent), s.pending = ev :: rest → step s = .next t →
    t.pending = rest ∧
    ∀ others : List PortEvent, step { s with pending := ev :: others } = .next { t with pending := others }

/-- 70_reset_and_hazards.md section 1: SEQ_INIT resets only the sequencer, CLEAR only BUF, and nothing but the reset input
clears STICKY. That the input clears it at a release after an assertion, and at no other change, is the model's choice
(log 5). -/
def Obligations.OnlyTheResetInputClearsSticky : Prop :=
  (∀ (m : Bool) (s : State), exec (.seqInit m) s = .next { s with
    seqBuf := State.reset.seqBuf, seqTime := State.reset.seqTime,
    seqCtrl := { State.reset.seqCtrl with mitigate := m },
    status := { err := none, sticky := s.status.sticky } }) ∧
  (∀ s : State, exec .clear s = .next { s with
    buf := State.reset.buf, status := { err := none, sticky := s.status.sticky } }) ∧
  (∀ s t : State, s.status.sticky = true → step s = .next t → t.status.sticky = false →
    s.resetAsserted = true ∧ ∃ rest, s.pending = .resetLine false :: rest)

/-! The window. -/

/-- 20_memory.md R55: a read of a legal register returns its current value and changes no state; a read of NOW returns
a fresh sample of the clock port. What the value is, register by register; the fields of STATUS, SEQ_CTRL and SEQ_TIME
stand where StatusAndSequencerWordsLayout says. -/
def Obligations.HostReadReturnsTheRegister : Prop :=
  (∀ s : State,
    readReg .cmd s = s.cmd.setWidth 64 ∧ readReg .status s = (statusWord s.status).setWidth 64 ∧
    readReg .timeOp s = s.timeOp ∧ readReg .res s = s.res ∧ readReg .now s = s.clockNow.setWidth 64 ∧
    readReg .strLen s = s.strLen.setWidth 64 ∧ readReg .seqCtrl s = (seqCtrlWord s.seqCtrl).setWidth 64 ∧
    readReg .seqTime s = s.seqTime.setWidth 64 ∧ (∀ i : Fin 16, readReg (.buf i) s = s.buf[i].setWidth 64) ∧
    (∀ i : Fin 16, readReg (.seqBuf i) s = s.seqBuf[i].setWidth 64) ∧
    ∀ i : Fin 26, readReg (.str i) s = s.str[i].setWidth 64) ∧
  ∀ (s : State) (r : Reg) (rest : List PortEvent), s.resetAsserted = false →
    s.pending = .access (.read r.offset r.width) :: rest →
    ∃ t, step s = .next t ∧ t.readData = some (readReg r s) ∧
      (r ≠ .now → t = { s with pending := rest, readData := t.readData }) ∧
      (r = .now → t.readData = some (s.clockNow.setWidth 64) ∧
        t = { s.consumeClock with pending := rest, readData := t.readData })

/-- 20_memory.md R56: a write to TIME_OP, STR_LEN, BUF[i] or STR[i] stores the value and does nothing else; a write to
CMD stores the word and executes it. -/
def Obligations.HostWriteStoresTheValue : Prop :=
  ∀ (s : State) (rest : List PortEvent), s.resetAsserted = false →
    (∀ v : Word64, s.pending = .access (.write 0x08 8 v.toNat) :: rest →
      step s = .next { s with pending := rest, timeOp := v }) ∧
    (∀ v : Word32, s.pending = .access (.write 0x20 4 v.toNat) :: rest →
      step s = .next { s with pending := rest, strLen := v }) ∧
    (∀ (i : Fin 16) (v : Byte), s.pending = .access (.write (0x30 + i.val) 1 v.toNat) :: rest →
      step s = .next { s with pending := rest, buf := s.buf.set i v }) ∧
    (∀ (i : Fin 26) (v : Byte), s.pending = .access (.write (0x50 + i.val) 1 v.toNat) :: rest →
      step s = .next { s with pending := rest, str := s.str.set i v }) ∧
    (∀ w : Word32, s.pending = .access (.write 0x00 4 w.toNat) :: rest →
      step s = executeCommand w { s with pending := rest } ∧ ∃ t, step s = .next t ∧ t.cmd = w)

/-- 20_memory.md section 2: a byte of BUF written by the host is read back by a later read of it, and every other
byte reads as before. -/
def Obligations.BufByteReadsBackWhatWasWritten : Prop :=
  ∀ (s t : State) (i j : Fin 16) (v : Byte) (rest : List PortEvent),
    s.pending = .access (.write (0x30 + i.val) 1 v.toNat) :: .access (.read (0x30 + j.val) 1) :: rest →
    step s = .next t →
    ∃ u, step t = .next u ∧
      u.readData = some (if i = j then v.setWidth 64 else s.buf[j].setWidth 64) ∧ u.pending = rest

/-- 20_memory.md R54 and section 2 (R52, R53): with reset released, a read is refused exactly when no register begins at
its offset with its width, and a write is refused exactly when no register the host may write does. -/
def Obligations.ForbiddenAccessesAreRefused : Prop :=
  ∀ (s : State) (off n : Nat) (rest : List PortEvent), s.resetAsserted = false →
    (s.pending = .access (.read off n) :: rest →
      ((∃ why, step s = .refused why) ↔ ¬ ∃ r : Reg, r.offset = off ∧ r.width = n)) ∧
    (∀ v, s.pending = .access (.write off n v) :: rest →
      ((∃ why, step s = .refused why) ↔ ¬ ∃ r : Reg, r.offset = off ∧ r.width = n ∧ r.hostWritable = true))

/-- 20_memory.md R53: an access of any width to offset 0x6A to 0x7F is a host access fault, refused. -/
def Obligations.ReservedOffsetsAreRefused : Prop :=
  ∀ (s : State) (off n v : Nat) (rest : List PortEvent), s.resetAsserted = false → 0x6A ≤ off → off ≤ 0x7F →
    (s.pending = .access (.read off n) :: rest → step s = .refused .reservedOffset) ∧
    (s.pending = .access (.write off n v) :: rest → step s = .refused .reservedOffset)

/-- 20_memory.md section 1: a platform address is in the window exactly when it is ENGINE_BASE plus an offset below
0x80. -/
def Obligations.WindowIsAtEngineBase : Prop :=
  ∀ addr off : Nat, windowOffset addr = some off ↔ addr = Config.engineBase + off ∧ off < 0x80

/-- 10_state.md sections 3 and 4: the fields' places in STATUS, SEQ_CTRL and SEQ_TIME, all other bits 0, and ERR never
6 or 7; the numbers ERR holds (60_exceptions.md section 1), and LASTMODE 0 for Fresh and 1 for Incrementing. -/
def Obligations.StatusAndSequencerWordsLayout : Prop :=
  (errCode none = 0 ∧ errCode (some .invalidLength) = 1 ∧ errCode (some .invalidCharacter) = 2 ∧
    errCode (some .timestampOutOfRange) = 3 ∧ errCode (some .overflow) = 4 ∧ errCode (some .illegalCommand) = 5) ∧
  (Path.bit .fresh = false ∧ Path.bit .incrementing = true) ∧
  ∀ s : State,
    (readReg .status s).toNat = errCode s.status.err + 8 * s.status.sticky.toNat ∧ errCode s.status.err ≤ 5 ∧
    (readReg .seqCtrl s).toNat =
      s.seqCtrl.valid.toNat + 2 * s.seqCtrl.mitigate.toNat + 4 * s.seqCtrl.lastMode.bit.toNat ∧
    (readReg .seqTime s).toNat = s.seqTime.toNat

/-! Every command. -/

/-- 60_exceptions.md R181: every command, legal or not, ends by writing STATUS.ERR, 0 on success and the code on an
error, and beyond CMD and what the clock port has yielded (left open here) the code and STICKY are all an error leaves.
The codes are R180's numbers. -/
def Obligations.EveryCommandEndsByWritingErr : Prop :=
  (Err.code .invalidLength = 1 ∧ Err.code .invalidCharacter = 2 ∧ Err.code .timestampOutOfRange = 3 ∧
    Err.code .overflow = 4 ∧ Err.code .illegalCommand = 5 ∧ errCode none = 0) ∧
  ∀ (w : Word32) (s : State), ∃ t, executeCommand w s = .next t ∧
    (endsOk s t ∨ ∃ e, errCode t.status.err = e.code ∧
      t = { withError e { s with cmd := w } with clockIn := t.clockIn, clockDraws := t.clockDraws })

/-- 60_exceptions.md R182: an error leaves BUF, STR, STR_LEN, RES, the sequencer and every other register as they were,
and writes the code and STICKY; no random draw is taken. -/
def Obligations.AnErrorChangesOnlyStatus : Prop :=
  ∀ (i : Instr) (s t : State) (e : Err), exec i s = .next t → t.status.err = some e →
    t = { withError e s with clockIn := t.clockIn, clockDraws := t.clockDraws }

/-- 60_exceptions.md section 1 (its table of R183 is derived there): the errors each command can raise when legal. -/
def Obligations.CommandsRaiseOnlyTheirErrors : Prop :=
  ∀ (i : Instr) (s t : State) (e : Err), i.wellFormed = true → exec i s = .next t → t.status.err = some e →
    mayRaise i e = true

/-- 10_state.md section 7, column "written by commands": a command changes no register but STATUS and those its row
names (SET_TIME of BUF only the timestamp field, SET_RAND and INC only the random segment, 41_identifier_buffer.md
sections 1 and 2), and nothing outside the engine but what the input ports yield. -/
def Obligations.CommandsWriteOnlyTheirRegisters : Prop :=
  ∀ (i : Instr) (s t : State), exec i s = .next t →
    (∀ r : Reg, r ≠ .now → r ≠ .status → mayWrite i r = false → readReg r t = readReg r s) ∧
    t.pending = s.pending ∧ t.readData = s.readData ∧ t.resetAsserted = s.resetAsserted

/-- 10_state.md R36: no register shows the random port, and only SET_RAND, MAKE and the Fresh path of GEN_MONO sample
it, one draw each. -/
def Obligations.OnlyTheseCommandsTakeADraw : Prop :=
  (∀ (r : Reg) (s : State) (draws : List (Bytes 10)) (n : Nat),
    readReg r { s with randIn := draws, randDraws := n } = readReg r s ∧ (afterRead r s).randIn = s.randIn ∧
      (afterRead r s).randDraws = s.randDraws) ∧
  ∀ (i : Instr) (s t : State), exec i s = .next t →
    (takesDraw i s = true → t.randDraws = s.randDraws + 1 ∧ t.randIn = s.randIn.tail) ∧
    (takesDraw i s = false → t.randDraws = s.randDraws ∧ t.randIn = s.randIn)

/-- 60_exceptions.md section 3: of the commands, only MAKE with S = 0 and GEN_MONO sample the clock port, once each. That
the sample of a GEN_MONO that raises Overflow stays taken is the model's choice (log 6). -/
def Obligations.OnlyTheseCommandsSampleTheClock : Prop :=
  ∀ (i : Instr) (s t : State), exec i s = .next t →
    (samplesClock i = true → t.clockDraws = s.clockDraws + 1 ∧ t.clockIn = s.clockIn.tail) ∧
    (samplesClock i = false → t.clockDraws = s.clockDraws ∧ t.clockIn = s.clockIn)

/-! The symbol codec. -/

/-- 40_symbol_codec.md section 1: ENC_TABLE is the alphabet string in order. The order is the standard Crockford one,
which the spec marks as general knowledge (93_implementation_defined.md G1, log 16). -/
def Obligations.EncTableIsTheAlphabet : Prop :=
  (List.range 32).map (fun v => Char.ofNat (encSym (BitVec.ofNat 5 v)).toNat) =
    "0123456789ABCDEFGHJKMNPQRSTVWXYZ".toList

/-- 40_symbol_codec.md section 1: a byte decodes to v exactly when it is v's character or that letter's lower-case form
(0x20 above it); the alphabet's order is general knowledge (G1, log 16). -/
def Obligations.DecSymInvertsEncSymInEitherCase : Prop :=
  ∀ (c : Byte) (v : BitVec 5), decSym c = some v ↔ c = encSym v ∨ (10 ≤ v.toNat ∧ c = encSym v + 0x20)

/-- 40_symbol_codec.md R103: the INVALID bytes include I, L, O, U in either case, the hyphen, the space, every control
byte and every byte from 0x7F up. -/
def Obligations.ExcludedBytesAreInvalid : Prop :=
  (∀ c ∈ [0x49#8, 0x4C#8, 0x4F#8, 0x55#8, 0x69#8, 0x6C#8, 0x6F#8, 0x75#8, 0x2D#8], decSym c = none) ∧
  (∀ c : Byte, c.toNat < 0x30 ∨ 0x7B ≤ c.toNat → decSym c = none) ∧
  (∀ c : Byte, (0x3A ≤ c.toNat ∧ c.toNat ≤ 0x40) ∨ (0x5B ≤ c.toNat ∧ c.toNat ≤ 0x60) → decSym c = none)

/-- 40_symbol_codec.md R104: SYM_ENC leaves the character of its value in RES, zero-extended, and ERR 0; a word with
w[23:21] != 0 raises IllegalCommand; 0 gives `0`, 18 `J`, 31 `Z`, and no value a lower-case letter or I, L, O, U. -/
def Obligations.SymEncGivesTheCharacter : Prop :=
  (∀ v : BitVec 8, v.toNat ≤ 31 → decode (0x00000001#32 ||| (v.setWidth 32 <<< 16)) = .ok (.symEnc v)) ∧
  (∀ (v : BitVec 8) (s : State), 31 < v.toNat →
    executeCommand (0x00000001#32 ||| (v.setWidth 32 <<< 16)) s =
      .next (withError .illegalCommand { s with cmd := 0x00000001#32 ||| (v.setWidth 32 <<< 16) })) ∧
  (encSym 0 = 0x30 ∧ encSym 18 = 0x4A ∧ encSym 31 = 0x5A ∧
    ∀ v, encSym v ∉ [0x49#8, 0x4C#8, 0x4F#8, 0x55#8] ∧ (encSym v).toNat < 0x61) ∧
  (∀ (v : BitVec 8) (s : State), v.toNat ≤ 31 →
    ∃ t, exec (.symEnc v) s = .next t ∧ t.res = (encSym (BitVec.ofNat 5 v.toNat)).setWidth 64 ∧ endsOk s t ∧
      t = { s with res := t.res, status := t.status })

/-- 40_symbol_codec.md R105: SYM_DEC leaves the value of its character in RES, or raises InvalidCharacter with RES
unchanged; no first-position rule. -/
def Obligations.SymDecGivesTheValue : Prop :=
  (∀ c : BitVec 8, decode (0x00000002#32 ||| (c.setWidth 32 <<< 16)) = .ok (.symDec c)) ∧
  (∀ (c : BitVec 8) (d : BitVec 5) (s : State), decSym c = some d →
    ∃ t, exec (.symDec c) s = .next t ∧ t.res = d.setWidth 64 ∧ endsOk s t ∧
      t = { s with res := t.res, status := t.status }) ∧
  (∀ (c : BitVec 8) (s : State), decSym c = none → exec (.symDec c) s = .next (withError .invalidCharacter s)) ∧
  (decSym 0x41 = some 10 ∧ decSym 0x61 = some 10 ∧ decSym 0x38 = some 8 ∧ decSym 0x7A = some 31 ∧
    ∀ c ∈ [0x49#8, 0x69#8, 0x4C#8, 0x4F#8, 0x55#8, 0x2D#8, 0x00#8], decSym c = none)

/-! The identifier buffer. -/

/-- 41_identifier_buffer.md R110: CLEAR zeroes BUF and touches nothing else but STATUS. -/
def Obligations.ClearZeroesBuf : Prop :=
  decode 0x00000010#32 = .ok .clear ∧
  ∀ s : State, ∃ t, exec .clear s = .next t ∧ (∀ i : Fin 16, t.buf[i] = 0) ∧ endsOk s t ∧
    t = { s with buf := t.buf, status := t.status }

/-- 41_identifier_buffer.md R111: SET_TIME writes TIME_OP mod 2^48, big-endian, into BUF[0..5], and leaves the random
segment alone. -/
def Obligations.SetTimeWritesTheTruncatedTime : Prop :=
  decode 0x00000011#32 = .ok .setTime ∧
  ∀ s : State, ∃ t, exec .setTime s = .next t ∧
    timeField t.buf = s.timeOp.toNat % 2 ^ 48 ∧
    (∀ i : Fin 16, i.val < 6 → t.buf[i] = s.timeOp.extractLsb' (8 * (5 - i.val)) 8) ∧
    (∀ i : Fin 16, 6 ≤ i.val → t.buf[i] = s.buf[i]) ∧ endsOk s t ∧
    t = { s with buf := t.buf, status := t.status }

/-- 41_identifier_buffer.md R112: GET_TIME leaves the timestamp field in RES, zero-extended. -/
def Obligations.GetTimeReadsTheTimestamp : Prop :=
  decode 0x00000012#32 = .ok .getTime ∧
  ∀ s : State, ∃ t, exec .getTime s = .next t ∧ t.res.toNat = timeField s.buf ∧ t.res.toNat ≤ 2 ^ 48 - 1 ∧
    endsOk s t ∧ t = { s with res := t.res, status := t.status }

/-- 41_identifier_buffer.md R113: SET_RAND writes the ten drawn bytes into BUF[6..15], unmasked, for every draw. -/
def Obligations.SetRandWritesTheDraw : Prop :=
  decode 0x00000013#32 = .ok .setRand ∧
  ∀ s : State, ∃ t, exec .setRand s = .next t ∧
    (∀ k : Fin 10, t.buf[6 + k.val] = s.randomNow[k]) ∧ (∀ i : Fin 16, i.val < 6 → t.buf[i] = s.buf[i]) ∧
    endsOk s t ∧ t = { s.consumeRandom with buf := t.buf, status := t.status }

/-- 41_identifier_buffer.md section 2 (R114's second form is derived there): the byte loop is addition of 1 modulo 2^80,
and carries out exactly from 2^80 - 1. -/
def Obligations.Inc80IsAdditionModulo : Prop :=
  ∀ b : Bytes 16, be (inc80 b).1.toList = (randField b + 1) % 2 ^ 80 ∧
    ((inc80 b).2 = true ↔ randField b = 2 ^ 80 - 1)

/-- 41_identifier_buffer.md R115: INC adds 1 to the random segment; from all 0xFF it wraps to 0 with T = 0, and with
T = 1 raises Overflow with BUF unchanged; the timestamp field never changes. -/
def Obligations.IncAddsOneOrOverflows : Prop :=
  decode 0x00000014#32 = .ok (.inc false) ∧ decode 0x00000114#32 = .ok (.inc true) ∧
  ∀ (throw : Bool) (s : State),
    (randField s.buf ≠ 2 ^ 80 - 1 ∨ throw = false →
      ∃ t, exec (.inc throw) s = .next t ∧ randField t.buf = (randField s.buf + 1) % 2 ^ 80 ∧
        (∀ i : Fin 16, i.val < 6 → t.buf[i] = s.buf[i]) ∧ endsOk s t ∧
        t = { s with buf := t.buf, status := t.status }) ∧
    (randField s.buf = 2 ^ 80 - 1 → exec (.inc true) s = .next (withError .overflow s))

/-- 41_identifier_buffer.md R116: VALID_BUF leaves 1 in RES for every content of BUF. -/
def Obligations.ValidBufIsAlwaysOne : Prop :=
  decode 0x00000015#32 = .ok .validBuf ∧
  ∀ s : State, ∃ t, exec .validBuf s = .next t ∧ t.res = 1 ∧ endsOk s t ∧
    t = { s with res := t.res, status := t.status }

/-- 41_identifier_buffer.md R117: MAKE writes the time (TIME_OP with S = 1, one clock sample with S = 0) and a draw into
BUF, and with E = 1 its text into STR; with S = 1 a time above 2^48 - 1 raises TimestampOutOfRange, and nothing is
written and no draw taken. For every sample and draw. -/
def Obligations.MakeBuildsAnIdentifier : Prop :=
  (decode 0x00000016#32 = .ok (.make false false) ∧ decode 0x00000216#32 = .ok (.make true false) ∧
    decode 0x00000416#32 = .ok (.make false true) ∧ decode 0x00000616#32 = .ok (.make true true)) ∧
  ∀ (e : Bool) (s : State),
    (s.timeOp.toNat ≤ 2 ^ 48 - 1 →
      ∃ t, exec (.make true e) s = .next t ∧ timeField t.buf = s.timeOp.toNat ∧
        (∀ k : Fin 10, t.buf[6 + k.val] = s.randomNow[k]) ∧ textWritten e s t ∧ endsOk s t ∧
        t = { s.consumeRandom with buf := t.buf, str := t.str, strLen := t.strLen, status := t.status }) ∧
    (2 ^ 48 - 1 < s.timeOp.toNat → exec (.make true e) s = .next (withError .timestampOutOfRange s)) ∧
    (∃ t, exec (.make false e) s = .next t ∧ timeField t.buf = s.clockNow.toNat ∧
      (∀ k : Fin 10, t.buf[6 + k.val] = s.randomNow[k]) ∧ textWritten e s t ∧ endsOk s t ∧
      t = { s.consumeClock.consumeRandom with
              buf := t.buf, str := t.str, strLen := t.strLen, status := t.status })

/-! The string codec. -/

/-- 42_string_codec.md section 1 (R140's table is derived there): the formula's symbol at each position is the one the
table takes from BUF's bytes. -/
def Obligations.EncodeFormulaIsTheByteTable : Prop :=
  ∀ (b : Bytes 16) (i : Fin 26), (symbolAt (bufValue b) i.val).toNat = windowSymbol b i.val

/-- 42_string_codec.md section 1: each byte of a decoded value is the one R141's table takes from the symbols. -/
def Obligations.DecodeFormulaIsTheSymbolTable : Prop :=
  ∀ (str : Bytes 26) (len : Word32) (v : Nat), dec130 str len = .ok v →
    ∃ ds, decSyms str.toList = some ds ∧
      ∀ j : Fin 16, (beBytes 16 v)[j].toNat = byteFromSymbols ds j.val

/-- 42_string_codec.md R142: ENCODE writes, at each position i of STR, the character of
`(V >> (125 - 5*i)) AND 31`, and 26 into STR_LEN. -/
def Obligations.EncodeWritesTheText : Prop :=
  decode 0x00000020#32 = .ok .encodeStr ∧
  ∀ s : State, ∃ t, exec .encodeStr s = .next t ∧
    (∀ i : Fin 26, t.str[i] = encSym (BitVec.ofNat 5 ((bufValue s.buf >>> (125 - 5 * i.val)) &&& 31))) ∧
    t.strLen = 26 ∧ endsOk s t ∧ t = { s with str := t.str, strLen := t.strLen, status := t.status }

/-- 42_string_codec.md R143 and R141: DECODE raises InvalidLength unless STR_LEN is 26, whatever STR holds; then
InvalidCharacter for an INVALID character or a first symbol above 7; else BUF gets the sum of `d_i * 2^(5*(25-i))`. -/
def Obligations.DecodeChecksThenWritesTheValue : Prop :=
  decode 0x00000021#32 = .ok .decodeStr ∧
  ∀ s : State,
    (s.strLen ≠ 26 → exec .decodeStr s = .next (withError .invalidLength s)) ∧
    (s.strLen = 26 → (∃ i : Fin 26, decSym s.str[i] = none) →
      exec .decodeStr s = .next (withError .invalidCharacter s)) ∧
    (∀ d : Fin 26 → BitVec 5, s.strLen = 26 → (∀ i : Fin 26, decSym s.str[i] = some (d i)) →
      (7 < (d 0).toNat → exec .decodeStr s = .next (withError .invalidCharacter s)) ∧
      ((d 0).toNat ≤ 7 →
        ∃ t, exec .decodeStr s = .next t ∧ bufValue t.buf = ∑ i : Fin 26, (d i).toNat * 2 ^ (5 * (25 - i.val)) ∧
          endsOk s t ∧ t = { s with buf := t.buf, status := t.status }))

/-- 42_string_codec.md section 2: VALID_STR leaves 1 in RES exactly when DECODE would succeed, else 0, and never raises
(R144 marks the equivalence with DECODE as derived). -/
def Obligations.ValidStrTellsWhetherDecodeSucceeds : Prop :=
  decode 0x00000022#32 = .ok .validStr ∧
  ∀ s : State, ∃ t, exec .validStr s = .next t ∧
    (t.res = 1 ↔ ∃ u, exec .decodeStr s = .next u ∧ u.status.err = none) ∧ (t.res = 1 ∨ t.res = 0) ∧ endsOk s t ∧
    t = { s with res := t.res, status := t.status }

/-- 42_string_codec.md section 3 (R145 is derived there): for every BUF, ENCODE then DECODE restores BUF, whatever was
written to BUF in between. -/
def Obligations.EncodeThenDecodeRestoresBuf : Prop :=
  ∀ (s : State) (b : Bytes 16), ∃ t u, exec .encodeStr s = .next t ∧ exec .decodeStr { t with buf := b } = .next u ∧
    u.buf = s.buf ∧ u.status.err = none

/-- 42_string_codec.md section 3: for every canonical string, DECODE then ENCODE restores STR and STR_LEN. -/
def Obligations.DecodeThenEncodeRestoresCanonicalStr : Prop :=
  ∀ s : State, canonicalString s → ∃ t u, exec .decodeStr s = .next t ∧ t.status.err = none ∧
    exec .encodeStr t = .next u ∧ u.str = s.str ∧ u.strLen = s.strLen

/-- 42_string_codec.md section 3: for every string DECODE accepts, ENCODE then gives its upper-case form. -/
def Obligations.DecodeThenEncodeGivesUpperCase : Prop :=
  ∀ s t : State, exec .decodeStr s = .next t → t.status.err = none →
    ∃ u, exec .encodeStr t = .next u ∧ ∀ i : Fin 26, u.str[i] = upperCase s.str[i]

/-- 42_string_codec.md section 3 (R146 is derived there): the first symbol of every string ENCODE produces and of every
string DECODE accepts is at most 7. -/
def Obligations.FirstSymbolIsAtMostSeven : Prop :=
  (∀ s : State, ∃ (t : State) (v : BitVec 5), exec .encodeStr s = .next t ∧ t.str[0] = encSym v ∧ v.toNat ≤ 7) ∧
  (∀ s t : State, exec .decodeStr s = .next t → t.status.err = none →
    ∃ v : BitVec 5, decSym s.str[0] = some v ∧ v.toNat ≤ 7)

/-- 42_string_codec.md section 3 (R147 is derived there): the numeric order of two identifiers is the lexicographic
order of their bytes and of their texts; the texts' order rests on the alphabet's order and on ASCII (log 16). -/
def Obligations.TextOrderIsNumericOrder : Prop :=
  ∀ a b : Bytes 16,
    (bufValue a < bufValue b ↔ a.toList < b.toList) ∧
    (bufValue a < bufValue b ↔ (enc128 (bufValue a)).toList < (enc128 (bufValue b)).toList)

/-! The sequencer. -/

/-- 43_sequencer.md R161: SEQ_INIT empties the sequencer, sets MITIGATE to M and touches nothing else but STATUS. -/
def Obligations.SeqInitEmptiesTheSequencer : Prop :=
  (decode 0x00000030#32 = .ok (.seqInit false) ∧ decode 0x00000830#32 = .ok (.seqInit true)) ∧
  (∀ (m : Bool) (s : State), ∃ t, exec (.seqInit m) s = .next t ∧ (∀ i : Fin 16, t.seqBuf[i] = 0) ∧ t.seqTime = 0 ∧
    t.seqCtrl = { valid := false, mitigate := m, lastMode := .fresh } ∧ endsOk s t ∧
    t = { s with seqBuf := t.seqBuf, seqTime := t.seqTime, seqCtrl := t.seqCtrl, status := t.status } ∧
    exec (.seqInit m) t = .next t ∧ freshPath t.clockNow t = true)

/-- 43_sequencer.md R163: a successful GEN_MONO took the Fresh path exactly when SEQ_VALID = 0 or the sample was above
SEQ_TIME, unsigned; the clock is sampled once. -/
def Obligations.GenMonoPathSelection : Prop :=
  ∀ (e : Bool) (s t : State), exec (.genMono e) s = .next t → t.status.err = none →
    (t.seqCtrl.lastMode = .fresh ↔ s.seqCtrl.valid = false ∨ s.seqTime.toNat < s.clockNow.toNat) ∧
    t.clockDraws = s.clockDraws + 1

/-- 43_sequencer.md R164: on the Fresh path the identifier's timestamp field is the sample and its random segment a
fresh draw (bit 7 of byte 6 cleared under MITIGATE = 1); the previous SEQ_BUF plays no part. For every sample and
draw. -/
def Obligations.GenMonoFreshEmitsSampleAndDraw : Prop :=
  (decode 0x00000031#32 = .ok (.genMono false) ∧ decode 0x00000431#32 = .ok (.genMono true)) ∧
  ∀ (e : Bool) (s : State), s.seqCtrl.valid = false ∨ s.seqTime.toNat < s.clockNow.toNat →
    ∃ t, exec (.genMono e) s = .next t ∧ timeField t.buf = s.clockNow.toNat ∧
      (∀ k : Fin 10, t.buf[6 + k.val] =
        if k = 0 ∧ s.seqCtrl.mitigate = true then s.randomNow[k] &&& 0x7F else s.randomNow[k]) ∧
      t.seqBuf = t.buf ∧ t.seqTime = s.clockNow ∧
      t.seqCtrl = { valid := true, mitigate := s.seqCtrl.mitigate, lastMode := .fresh } ∧
      textWritten e s t ∧ endsOk s t ∧
      t = { s.consumeClock.consumeRandom with
              buf := t.buf, seqBuf := t.seqBuf, seqTime := t.seqTime, seqCtrl := t.seqCtrl, str := t.str,
              strLen := t.strLen, status := t.status }

/-- 43_sequencer.md R165: under MITIGATE = 1 the Fresh path's random segment is at most 2^79 - 1, its top bit cleared;
under MITIGATE = 0 no bit is masked; MITIGATE is 0 after reset and SEQ_INIT sets it from M; the Incrementing path never
masks. -/
def Obligations.MitigationClearsTheTopBit : Prop :=
  State.reset.seqCtrl.mitigate = false ∧
  (∀ (m : Bool) (s : State), ∃ t, exec (.seqInit m) s = .next t ∧ t.seqCtrl.mitigate = m) ∧
  ∀ (e : Bool) (s t : State), exec (.genMono e) s = .next t → t.status.err = none →
    (t.seqCtrl.lastMode = .fresh → s.seqCtrl.mitigate = true →
      t.buf[6] = s.randomNow[0] &&& 0x7F ∧ (∀ k : Fin 10, k ≠ 0 → t.buf[6 + k.val] = s.randomNow[k]) ∧
        randField t.buf ≤ 2 ^ 79 - 1) ∧
    (t.seqCtrl.lastMode = .fresh → s.seqCtrl.mitigate = false → ∀ k : Fin 10, t.buf[6 + k.val] = s.randomNow[k]) ∧
    (t.seqCtrl.lastMode = .incrementing → randField t.buf = randField s.seqBuf + 1)

/-- 43_sequencer.md R166: on the Incrementing path the identifier is inc80 of a copy of SEQ_BUF: SEQ_BUF's timestamp
field (which is SEQ_TIME wherever the sequencer's invariant holds) and its random segment plus 1; Overflow is always
signalled (whether its clock sample stays taken is left open here); no draw is taken, and BUF's old content plays no
part. -/
def Obligations.GenMonoIncrementingAddsOne : Prop :=
  ∀ (e : Bool) (s : State), s.seqCtrl.valid = true → s.clockNow.toNat ≤ s.seqTime.toNat →
    (randField s.seqBuf = 2 ^ 80 - 1 →
      ∃ t, exec (.genMono e) s = .next t ∧
        t = { withError .overflow s with clockIn := t.clockIn, clockDraws := t.clockDraws }) ∧
    (randField s.seqBuf ≠ 2 ^ 80 - 1 →
      ∃ t, exec (.genMono e) s = .next t ∧ timeField t.buf = timeField s.seqBuf ∧
        (SequencerInv s → timeField t.buf = s.seqTime.toNat) ∧
        randField t.buf = randField s.seqBuf + 1 ∧ t.seqBuf = t.buf ∧ t.seqTime.toNat = timeField s.seqBuf ∧
        t.seqCtrl = { valid := true, mitigate := s.seqCtrl.mitigate, lastMode := .incrementing } ∧
        textWritten e s t ∧ endsOk s t ∧
        t = { s.consumeClock with
                buf := t.buf, seqBuf := t.seqBuf, seqTime := t.seqTime, seqCtrl := t.seqCtrl, str := t.str,
                strLen := t.strLen, status := t.status })

/-- 43_sequencer.md section 2: where the Incrementing path's random segment is all 0xFF, GEN_MONO raises Overflow and
writes nothing but STATUS. After it, and after any steps with no reset, no SEQ_INIT and no successful GEN_MONO, a
GEN_MONO whose sample is not above SEQ_TIME raises Overflow again, and one whose sample is takes the Fresh path and
succeeds. That the clock sample of a GEN_MONO that raises Overflow stays taken is the model's choice (log 6). -/
def Obligations.GenMonoOverflowEmitsNothing : Prop :=
  ∀ (e e' : Bool) (s u : State), s.seqCtrl.valid = true → s.clockNow.toNat ≤ s.seqTime.toNat →
    randField s.seqBuf = 2 ^ 80 - 1 →
    exec (.genMono e) s = .next (withError .overflow s.consumeClock) ∧
    (nothingEmitted (withError .overflow s.consumeClock) u →
      (u.clockNow.toNat ≤ s.seqTime.toNat → exec (.genMono e') u = .next (withError .overflow u.consumeClock)) ∧
      (s.seqTime.toNat < u.clockNow.toNat →
        ∃ t, exec (.genMono e') u = .next t ∧ t.status.err = none ∧ t.seqCtrl.lastMode = .fresh))

/-- 43_sequencer.md R168: a successful GEN_MONO records the identifier in SEQ_BUF and its own timestamp in SEQ_TIME. -/
def Obligations.GenMonoRecordsTheEmittedIdentifier : Prop :=
  ∀ (e : Bool) (s t : State), exec (.genMono e) s = .next t → t.status.err = none →
    t.seqBuf = t.buf ∧ t.seqTime.toNat = timeField t.buf ∧ t.seqCtrl.valid = true

/-- 43_sequencer.md section 2 (R162's corner case) and 10_state.md section 4: what BUF, STR, STR_LEN, TIME_OP, RES and
CMD hold has no influence on what GEN_MONO emits or records. -/
def Obligations.GenMonoIgnoresTheHostsRegisters : Prop :=
  ∀ (e : Bool) (s t : State) (b : Bytes 16) (str : Bytes 26) (len cmd : Word32) (op res : Word64),
    exec (.genMono e) s = .next t →
    ∃ u, exec (.genMono e) { s with buf := b, str := str, strLen := len, timeOp := op, res := res, cmd := cmd } = .next u ∧
      u.status = t.status ∧ u.seqBuf = t.seqBuf ∧ u.seqTime = t.seqTime ∧ u.seqCtrl = t.seqCtrl ∧
      (t.status.err = none → u.buf = t.buf)

/-- 10_state.md section 4 (R34 is derived there) and 43_sequencer.md section 1: every step keeps the sequencer's
invariant. -/
def Obligations.EveryStepKeepsTheSequencerInvariant : Prop :=
  ∀ s t : State, SequencerInv s → step s = .next t → SequencerInv t

/-- 10_state.md section 4: the sequencer's invariant holds right after reset. -/
def Obligations.SequencerInvariantHoldsAtReset : Prop := SequencerInv State.reset

/-- 43_sequencer.md section 3 (R169 is derived there): of two successful GEN_MONO commands with no reset and no SEQ_INIT
between them, the later leaves a strictly greater value in BUF, whatever else happened between and whatever the clock
carried. -/
def Obligations.EmittedIdentifiersStrictlyIncrease : Prop :=
  ∀ s₀ s₁ s₂ s₃ : State, emits s₀ s₁ → sameGenerator s₁ s₂ → emits s₂ s₃ → bufValue s₁.buf < bufValue s₃.buf

/-- 43_sequencer.md section 3: for consecutive successful GEN_MONO commands, on the Incrementing path the timestamp
field is the first's and the value exactly one greater; on the Fresh path the timestamp is strictly greater. -/
def Obligations.ConsecutiveIdentifiersByPath : Prop :=
  ∀ s₀ s₁ s₂ s₃ : State, emits s₀ s₁ → nothingEmitted s₁ s₂ → emits s₂ s₃ →
    (s₃.seqCtrl.lastMode = .incrementing →
      timeField s₃.buf = timeField s₁.buf ∧ bufValue s₃.buf = bufValue s₁.buf + 1) ∧
    (s₃.seqCtrl.lastMode = .fresh → timeField s₁.buf < timeField s₃.buf)

/-- 43_sequencer.md section 3 (R171 is derived there): while the clock stays at or below SEQ_TIME, exactly
2^80 - 1 - RAND further GEN_MONO succeed, each adding 1, and the next raises Overflow (its clock sample stays taken,
log 6). -/
def Obligations.IncrementBudgetIsExact : Prop :=
  ∀ (e : Bool) (k : Nat) (s : State), s.seqCtrl.valid = true → s.seqTime.toNat = timeField s.seqBuf →
    (∀ j ≤ k, (clockAhead j s).toNat ≤ s.seqTime.toNat) → k ≤ 2 ^ 80 - 1 - randField s.seqBuf →
    ∃ t, execTimes (.genMono e) k s = .next t ∧ (0 < k → t.status.err = none) ∧
      t.status.sticky = s.status.sticky ∧ timeField t.seqBuf = timeField s.seqBuf ∧
      randField t.seqBuf = randField s.seqBuf + k ∧
      (k = 2 ^ 80 - 1 - randField s.seqBuf → exec (.genMono e) t = .next (withError .overflow t.consumeClock))
end

