-- ==== Sys2Proof/Laws/State.lean ====
section
/-! SUPPORT. What each named update of the state leaves in each field, so that no later proof unfolds a record
update. -/

namespace Sys2Proof.Machine

@[simp] theorem withRes_cmd (s : State) (v : Nat) : (s.withRes v).cmd = s.cmd := rfl
@[simp] theorem withRes_status (s : State) (v : Nat) : (s.withRes v).status = s.status := rfl
@[simp] theorem withRes_timeOp (s : State) (v : Nat) : (s.withRes v).timeOp = s.timeOp := rfl
@[simp] theorem withRes_res (s : State) (v : Nat) : (s.withRes v).res = zext64 v := rfl
@[simp] theorem withRes_strLen (s : State) (v : Nat) : (s.withRes v).strLen = s.strLen := rfl
@[simp] theorem withRes_seqCtrl (s : State) (v : Nat) : (s.withRes v).seqCtrl = s.seqCtrl := rfl
@[simp] theorem withRes_seqTime (s : State) (v : Nat) : (s.withRes v).seqTime = s.seqTime := rfl
@[simp] theorem withRes_buf (s : State) (v : Nat) : (s.withRes v).buf = s.buf := rfl
@[simp] theorem withRes_seqBuf (s : State) (v : Nat) : (s.withRes v).seqBuf = s.seqBuf := rfl
@[simp] theorem withRes_str (s : State) (v : Nat) : (s.withRes v).str = s.str := rfl
@[simp] theorem withRes_resetAsserted (s : State) (v : Nat) : (s.withRes v).resetAsserted = s.resetAsserted := rfl
@[simp] theorem withRes_pending (s : State) (v : Nat) : (s.withRes v).pending = s.pending := rfl
@[simp] theorem withRes_readData (s : State) (v : Nat) : (s.withRes v).readData = s.readData := rfl
@[simp] theorem withRes_clockIn (s : State) (v : Nat) : (s.withRes v).clockIn = s.clockIn := rfl
@[simp] theorem withRes_clockDraws (s : State) (v : Nat) : (s.withRes v).clockDraws = s.clockDraws := rfl
@[simp] theorem withRes_randIn (s : State) (v : Nat) : (s.withRes v).randIn = s.randIn := rfl
@[simp] theorem withRes_randDraws (s : State) (v : Nat) : (s.withRes v).randDraws = s.randDraws := rfl

@[simp] theorem consumeClock_cmd (s : State) : (s.consumeClock).cmd = s.cmd := rfl
@[simp] theorem consumeClock_status (s : State) : (s.consumeClock).status = s.status := rfl
@[simp] theorem consumeClock_timeOp (s : State) : (s.consumeClock).timeOp = s.timeOp := rfl
@[simp] theorem consumeClock_res (s : State) : (s.consumeClock).res = s.res := rfl
@[simp] theorem consumeClock_strLen (s : State) : (s.consumeClock).strLen = s.strLen := rfl
@[simp] theorem consumeClock_seqCtrl (s : State) : (s.consumeClock).seqCtrl = s.seqCtrl := rfl
@[simp] theorem consumeClock_seqTime (s : State) : (s.consumeClock).seqTime = s.seqTime := rfl
@[simp] theorem consumeClock_buf (s : State) : (s.consumeClock).buf = s.buf := rfl
@[simp] theorem consumeClock_seqBuf (s : State) : (s.consumeClock).seqBuf = s.seqBuf := rfl
@[simp] theorem consumeClock_str (s : State) : (s.consumeClock).str = s.str := rfl
@[simp] theorem consumeClock_resetAsserted (s : State) : (s.consumeClock).resetAsserted = s.resetAsserted := rfl
@[simp] theorem consumeClock_pending (s : State) : (s.consumeClock).pending = s.pending := rfl
@[simp] theorem consumeClock_readData (s : State) : (s.consumeClock).readData = s.readData := rfl
@[simp] theorem consumeClock_clockIn (s : State) : (s.consumeClock).clockIn = s.clockIn.tail := rfl
@[simp] theorem consumeClock_clockDraws (s : State) : (s.consumeClock).clockDraws = s.clockDraws + 1 := rfl
@[simp] theorem consumeClock_randIn (s : State) : (s.consumeClock).randIn = s.randIn := rfl
@[simp] theorem consumeClock_randDraws (s : State) : (s.consumeClock).randDraws = s.randDraws := rfl

@[simp] theorem consumeRandom_cmd (s : State) : (s.consumeRandom).cmd = s.cmd := rfl
@[simp] theorem consumeRandom_status (s : State) : (s.consumeRandom).status = s.status := rfl
@[simp] theorem consumeRandom_timeOp (s : State) : (s.consumeRandom).timeOp = s.timeOp := rfl
@[simp] theorem consumeRandom_res (s : State) : (s.consumeRandom).res = s.res := rfl
@[simp] theorem consumeRandom_strLen (s : State) : (s.consumeRandom).strLen = s.strLen := rfl
@[simp] theorem consumeRandom_seqCtrl (s : State) : (s.consumeRandom).seqCtrl = s.seqCtrl := rfl
@[simp] theorem consumeRandom_seqTime (s : State) : (s.consumeRandom).seqTime = s.seqTime := rfl
@[simp] theorem consumeRandom_buf (s : State) : (s.consumeRandom).buf = s.buf := rfl
@[simp] theorem consumeRandom_seqBuf (s : State) : (s.consumeRandom).seqBuf = s.seqBuf := rfl
@[simp] theorem consumeRandom_str (s : State) : (s.consumeRandom).str = s.str := rfl
@[simp] theorem consumeRandom_resetAsserted (s : State) : (s.consumeRandom).resetAsserted = s.resetAsserted := rfl
@[simp] theorem consumeRandom_pending (s : State) : (s.consumeRandom).pending = s.pending := rfl
@[simp] theorem consumeRandom_readData (s : State) : (s.consumeRandom).readData = s.readData := rfl
@[simp] theorem consumeRandom_clockIn (s : State) : (s.consumeRandom).clockIn = s.clockIn := rfl
@[simp] theorem consumeRandom_clockDraws (s : State) : (s.consumeRandom).clockDraws = s.clockDraws := rfl
@[simp] theorem consumeRandom_randIn (s : State) : (s.consumeRandom).randIn = s.randIn.tail := rfl
@[simp] theorem consumeRandom_randDraws (s : State) : (s.consumeRandom).randDraws = s.randDraws + 1 := rfl

@[simp] theorem resetRegisters_cmd (s : State) : (resetRegisters s).cmd = State.reset.cmd := rfl
@[simp] theorem resetRegisters_status (s : State) : (resetRegisters s).status = State.reset.status := rfl
@[simp] theorem resetRegisters_timeOp (s : State) : (resetRegisters s).timeOp = State.reset.timeOp := rfl
@[simp] theorem resetRegisters_res (s : State) : (resetRegisters s).res = State.reset.res := rfl
@[simp] theorem resetRegisters_strLen (s : State) : (resetRegisters s).strLen = State.reset.strLen := rfl
@[simp] theorem resetRegisters_seqCtrl (s : State) : (resetRegisters s).seqCtrl = State.reset.seqCtrl := rfl
@[simp] theorem resetRegisters_seqTime (s : State) : (resetRegisters s).seqTime = State.reset.seqTime := rfl
@[simp] theorem resetRegisters_buf (s : State) : (resetRegisters s).buf = State.reset.buf := rfl
@[simp] theorem resetRegisters_seqBuf (s : State) : (resetRegisters s).seqBuf = State.reset.seqBuf := rfl
@[simp] theorem resetRegisters_str (s : State) : (resetRegisters s).str = State.reset.str := rfl
@[simp] theorem resetRegisters_resetAsserted (s : State) : (resetRegisters s).resetAsserted = s.resetAsserted := rfl
@[simp] theorem resetRegisters_pending (s : State) : (resetRegisters s).pending = s.pending := rfl
@[simp] theorem resetRegisters_readData (s : State) : (resetRegisters s).readData = s.readData := rfl
@[simp] theorem resetRegisters_clockIn (s : State) : (resetRegisters s).clockIn = s.clockIn := rfl
@[simp] theorem resetRegisters_clockDraws (s : State) : (resetRegisters s).clockDraws = s.clockDraws := rfl
@[simp] theorem resetRegisters_randIn (s : State) : (resetRegisters s).randIn = s.randIn := rfl
@[simp] theorem resetRegisters_randDraws (s : State) : (resetRegisters s).randDraws = s.randDraws := rfl

@[simp] theorem alsoEncode_cmd (e : Bool) (b : Bytes 16) (s : State) : (alsoEncode e b s).cmd = s.cmd := by
  cases e <;> rfl
@[simp] theorem alsoEncode_status (e : Bool) (b : Bytes 16) (s : State) : (alsoEncode e b s).status = s.status := by
  cases e <;> rfl
@[simp] theorem alsoEncode_timeOp (e : Bool) (b : Bytes 16) (s : State) : (alsoEncode e b s).timeOp = s.timeOp := by
  cases e <;> rfl
@[simp] theorem alsoEncode_res (e : Bool) (b : Bytes 16) (s : State) : (alsoEncode e b s).res = s.res := by
  cases e <;> rfl
@[simp] theorem alsoEncode_seqCtrl (e : Bool) (b : Bytes 16) (s : State) : (alsoEncode e b s).seqCtrl = s.seqCtrl := by
  cases e <;> rfl
@[simp] theorem alsoEncode_seqTime (e : Bool) (b : Bytes 16) (s : State) : (alsoEncode e b s).seqTime = s.seqTime := by
  cases e <;> rfl
@[simp] theorem alsoEncode_buf (e : Bool) (b : Bytes 16) (s : State) : (alsoEncode e b s).buf = s.buf := by
  cases e <;> rfl
@[simp] theorem alsoEncode_seqBuf (e : Bool) (b : Bytes 16) (s : State) : (alsoEncode e b s).seqBuf = s.seqBuf := by
  cases e <;> rfl
@[simp] theorem alsoEncode_resetAsserted (e : Bool) (b : Bytes 16) (s : State) : (alsoEncode e b s).resetAsserted = s.resetAsserted := by
  cases e <;> rfl
@[simp] theorem alsoEncode_pending (e : Bool) (b : Bytes 16) (s : State) : (alsoEncode e b s).pending = s.pending := by
  cases e <;> rfl
@[simp] theorem alsoEncode_readData (e : Bool) (b : Bytes 16) (s : State) : (alsoEncode e b s).readData = s.readData := by
  cases e <;> rfl
@[simp] theorem alsoEncode_clockIn (e : Bool) (b : Bytes 16) (s : State) : (alsoEncode e b s).clockIn = s.clockIn := by
  cases e <;> rfl
@[simp] theorem alsoEncode_clockDraws (e : Bool) (b : Bytes 16) (s : State) : (alsoEncode e b s).clockDraws = s.clockDraws := by
  cases e <;> rfl
@[simp] theorem alsoEncode_randIn (e : Bool) (b : Bytes 16) (s : State) : (alsoEncode e b s).randIn = s.randIn := by
  cases e <;> rfl
@[simp] theorem alsoEncode_randDraws (e : Bool) (b : Bytes 16) (s : State) : (alsoEncode e b s).randDraws = s.randDraws := by
  cases e <;> rfl

@[simp] theorem alsoEncode_str (e : Bool) (b : Bytes 16) (s : State) :
    (alsoEncode e b s).str = if e then enc128 (bufValue b) else s.str := by
  cases e <;> rfl

@[simp] theorem alsoEncode_strLen (e : Bool) (b : Bytes 16) (s : State) :
    (alsoEncode e b s).strLen = if e then 26 else s.strLen := by
  cases e <;> rfl

@[simp] theorem afterSuccess_err (st : Status) : st.afterSuccess.err = none := rfl
@[simp] theorem afterSuccess_sticky (st : Status) : st.afterSuccess.sticky = st.sticky := rfl
@[simp] theorem afterError_err (e : Err) : (Status.afterError e).err = some e := rfl
@[simp] theorem afterError_sticky (e : Err) : (Status.afterError e).sticky = true := rfl

/-! The input ports' yields depend on their own fields only. -/

theorem clockNow_congr {s t : State} (h : s.clockIn = t.clockIn) (h' : s.clockDraws = t.clockDraws) :
    s.clockNow = t.clockNow := by
  simp [State.clockNow, h, h']

theorem randomNow_congr {s t : State} (h : s.randIn = t.randIn) (h' : s.randDraws = t.randDraws) :
    s.randomNow = t.randomNow := by
  simp [State.randomNow, h, h']

@[simp] theorem clockNow_of_cons {s : State} {t : Time} {ts : List Time} (h : s.clockIn = t :: ts) : s.clockNow = t := by
  simp [State.clockNow, h]

@[simp] theorem randomNow_of_cons {s : State} {r : Bytes 10} {rs : List (Bytes 10)} (h : s.randIn = r :: rs) :
    s.randomNow = r := by
  simp [State.randomNow, h]

@[simp] theorem consumeClock_randomNow (s : State) : s.consumeClock.randomNow = s.randomNow := rfl
@[simp] theorem consumeRandom_clockNow (s : State) : s.consumeRandom.clockNow = s.clockNow := rfl

end Sys2Proof.Machine
end

