-- ==== Sys2Proof/Laws/Ops.lean ====
section
/-! SUPPORT. One lemma for each shared operation: what it answers, and what numbers and bytes are to each other. -/

namespace Sys2Proof.Machine

/-! The two ends of a command. -/

theorem succeed_eq (s : State) : succeed s = .next { s with status := s.status.afterSuccess } := rfl

theorem raise_eq (e : Err) (s : State) : raise e s = .next { s with status := Status.afterError e } := rfl

theorem succeed_next {s t : State} (h : succeed s = .next t) : t = { s with status := s.status.afterSuccess } := by
  cases h; rfl

theorem raise_next {e : Err} {s t : State} (h : raise e s = .next t) : t = { s with status := Status.afterError e } := by
  cases h; rfl

/-! Digits. -/

@[simp] theorem bigEndian_nil (base : Nat) : bigEndian base [] = 0 := rfl

@[simp] theorem bigEndian_cons (base d : Nat) (ds : List Nat) :
    bigEndian base (d :: ds) = d * base ^ ds.length + bigEndian base ds := rfl

theorem bigEndian_append (base : Nat) (as bs : List Nat) :
    bigEndian base (as ++ bs) = bigEndian base as * base ^ bs.length + bigEndian base bs := by
  induction as with
  | nil => simp
  | cons a as ih => simp [ih, pow_add]; ring

/-- Digits below the base make a number below its power. -/
theorem bigEndian_lt {base : Nat} : ∀ {ds : List Nat}, (∀ d ∈ ds, d < base) → bigEndian base ds < base ^ ds.length
  | [], _ => by simp
  | d :: ds, h => by
    have hd : d + 1 ≤ base := h d (by simp)
    have hds := bigEndian_lt (ds := ds) fun x hx => h x (by simp [hx])
    calc bigEndian base (d :: ds) < d * base ^ ds.length + base ^ ds.length := by simpa using hds
      _ = (d + 1) * base ^ ds.length := by ring
      _ ≤ base * base ^ ds.length := Nat.mul_le_mul_right _ hd
      _ = base ^ (d :: ds).length := by simp [pow_succ, Nat.mul_comm]

/-- Digit k of a number written in a base: lists of digits below the base are equal when their numbers are. -/
theorem bigEndian_inj {base : Nat} : ∀ {as bs : List Nat}, as.length = bs.length → (∀ d ∈ as, d < base) →
    (∀ d ∈ bs, d < base) → bigEndian base as = bigEndian base bs → as = bs
  | [], [], _, _, _, _ => rfl
  | a :: as, b :: bs, hl, ha, hb, h => by
    have hlen : as.length = bs.length := by simpa using hl
    have hA := bigEndian_lt (ds := as) fun x hx => ha x (by simp [hx])
    have hB := bigEndian_lt (ds := bs) fun x hx => hb x (by simp [hx])
    simp only [bigEndian_cons, hlen] at h hA
    have hab : a = b := by
      rcases Nat.lt_trichotomy a b with hlt | heq | hlt
      · nlinarith [Nat.mul_le_mul_right (base ^ bs.length) hlt]
      · exact heq
      · nlinarith [Nat.mul_le_mul_right (base ^ bs.length) hlt]
    subst hab
    rw [bigEndian_inj hlen (fun x hx => ha x (by simp [hx])) (fun x hx => hb x (by simp [hx])) (by omega)]

/-- The digits of v in a base, most significant first, make v modulo the base's power. -/
theorem bigEndian_digits (base v : Nat) :
    ∀ n, bigEndian base ((List.range n).map fun j => v / base ^ (n - 1 - j) % base) = v % base ^ n
  | 0 => by simp [Nat.mod_one]
  | n + 1 => by
    have hshift : ((List.range n).map fun j => v / base ^ (n + 1 - 1 - (j + 1)) % base) =
        (List.range n).map fun j => v / base ^ (n - 1 - j) % base :=
      List.map_congr_left fun j _ => by rw [show n + 1 - 1 - (j + 1) = n - 1 - j by omega]
    rw [List.range_succ_eq_map, List.map_cons, List.map_map, bigEndian_cons]
    simp only [Function.comp_def, Nat.succ_eq_add_one, hshift, bigEndian_digits base v n, List.length_map,
      List.length_range]
    rw [show n + 1 - 1 - 0 = n by omega, pow_succ base n, Nat.mod_mul]
    ring

/-! Bytes. -/

@[simp] theorem be_nil : be [] = 0 := rfl

@[simp] theorem be_cons (b : Byte) (bs : List Byte) : be (b :: bs) = b.toNat * 256 ^ bs.length + be bs := by simp [be]

theorem be_append (as bs : List Byte) : be (as ++ bs) = be as * 256 ^ bs.length + be bs := by
  simp [be, bigEndian_append]

theorem be_lt (bs : List Byte) : be bs < 256 ^ bs.length := by
  simpa [be] using bigEndian_lt (base := 256) (ds := bs.map BitVec.toNat) (by simp; intro b _; exact b.isLt)

theorem be_inj {as bs : List Byte} (hl : as.length = bs.length) (h : be as = be bs) : as = bs := by
  have := bigEndian_inj (base := 256) (as := as.map BitVec.toNat) (bs := bs.map BitVec.toNat) (by simpa using hl)
    (by simp; intro b _; exact b.isLt) (by simp; intro b _; exact b.isLt) h
  exact (List.map_injective_iff.2 fun x y hxy => BitVec.eq_of_toNat_eq hxy) this

@[simp] theorem beBytes_get (n v i : Nat) (h : i < n) : (beBytes n v)[i] = BitVec.ofNat 8 (v >>> (8 * (n - 1 - i))) := by
  simp [beBytes]

theorem toList_beBytes (n v : Nat) :
    (beBytes n v).toList = (List.range n).map fun j => BitVec.ofNat 8 (v >>> (8 * (n - 1 - j))) := by
  apply List.ext_getElem <;> simp

/-- `be_bytes` then `be` is the number modulo 256^n. -/
theorem be_beBytes (n v : Nat) : be (beBytes n v).toList = v % 256 ^ n := by
  rw [toList_beBytes, be, List.map_map, ← bigEndian_digits 256 v n]
  congr 1
  refine List.map_congr_left fun j _ => ?_
  simp [Nat.shiftRight_eq_div_pow, pow_mul]

/-- `be` then `be_bytes` is the array. -/
theorem beBytes_be {n : Nat} (b : Bytes n) : beBytes n (be b.toList) = b := by
  have h : (beBytes n (be b.toList)).toList = b.toList := by
    apply be_inj (by simp)
    rw [be_beBytes, Nat.mod_eq_of_lt]
    simpa using be_lt b.toList
  exact Vector.toList_inj.1 h

end Sys2Proof.Machine
end

