-- ==== Sys2Proof/Laws/Operands.lean ====
section
/-! SUPPORT. The identifier's fields as lists of bytes and as numbers, and what each write of a field leaves. -/

namespace Sys2Proof.Machine

/-- BUF's value is TIME * 2^80 + RAND (10_state.md R23). -/
theorem bufValue_eq (b : Bytes 16) : bufValue b = timeField b * 2 ^ 80 + randField b := by
  have h := be_append (b.toList.take 6) (b.toList.drop 6)
  rw [List.take_append_drop] at h
  simpa [bufValue, timeField, randField] using h

theorem timeField_lt (b : Bytes 16) : timeField b < 2 ^ 48 := by
  simpa [timeField] using be_lt (b.toList.take 6)

theorem randField_lt (b : Bytes 16) : randField b < 2 ^ 80 := by
  simpa [randField] using be_lt (b.toList.drop 6)

theorem bufValue_lt (b : Bytes 16) : bufValue b < 2 ^ 128 := by
  simpa [bufValue] using be_lt b.toList

theorem bufValue_inj {a b : Bytes 16} (h : bufValue a = bufValue b) : a = b :=
  Vector.toList_inj.1 (be_inj (by simp) h)

@[simp] theorem beBytes_bufValue (b : Bytes 16) : beBytes 16 (bufValue b) = b := beBytes_be b

theorem bufValue_beBytes {v : Nat} (h : v < 2 ^ 128) : bufValue (beBytes 16 v) = v := by
  rw [bufValue, be_beBytes, Nat.mod_eq_of_lt (by simpa using h)]

@[simp] theorem timeField_zeroBuf : timeField zeroBuf = 0 := by decide

/-! Writing the timestamp field. -/

theorem withTime_get (b : Bytes 16) (t : Time) (i : Nat) (h : i < 16) :
    (withTime b t)[i] = if i < 6 then BitVec.ofNat 8 (t.toNat >>> (8 * (5 - i))) else b[i] := by
  by_cases hi : i < 6 <;> simp [withTime, hi]

theorem toList_withTime (b : Bytes 16) (t : Time) :
    (withTime b t).toList = (beBytes 6 t.toNat).toList ++ b.toList.drop 6 := by
  apply List.ext_getElem (by simp)
  intro i h _
  rw [Vector.getElem_toList, withTime_get _ _ _ (by simpa using h), List.getElem_append]
  by_cases hi : i < 6 <;> simp [hi, Nat.add_sub_cancel' (Nat.le_of_not_lt _)]

@[simp] theorem timeField_withTime (b : Bytes 16) (t : Time) : timeField (withTime b t) = t.toNat := by
  rw [timeField, toList_withTime, List.take_left' (by simp), be_beBytes, Nat.mod_eq_of_lt (by simpa using t.isLt)]

@[simp] theorem randField_withTime (b : Bytes 16) (t : Time) : randField (withTime b t) = randField b := by
  rw [randField, toList_withTime, List.drop_left' (by simp), randField]

/-! Writing the random segment. -/

theorem withRand_get (b : Bytes 16) (r : Bytes 10) (i : Nat) (h : i < 16) :
    (withRand b r)[i] = if h' : i < 6 then b[i] else r[i - 6] := by
  by_cases hi : i < 6 <;> simp [withRand, hi]

theorem withRand_get_low (b : Bytes 16) (r : Bytes 10) {i : Nat} (h : i < 6) : (withRand b r)[i] = b[i] := by
  simp [withRand_get, h]

theorem withRand_get_high (b : Bytes 16) (r : Bytes 10) (k : Nat) (h : k < 10) : (withRand b r)[6 + k] = r[k] := by
  simp [withRand_get]

theorem toList_withRand (b : Bytes 16) (r : Bytes 10) : (withRand b r).toList = b.toList.take 6 ++ r.toList := by
  apply List.ext_getElem (by simp)
  intro i h _
  rw [Vector.getElem_toList, withRand_get _ _ _ (by simpa using h), List.getElem_append]
  by_cases hi : i < 6 <;> simp [hi]

@[simp] theorem timeField_withRand (b : Bytes 16) (r : Bytes 10) : timeField (withRand b r) = timeField b := by
  rw [timeField, toList_withRand, List.take_left' (by simp), timeField]

@[simp] theorem randField_withRand (b : Bytes 16) (r : Bytes 10) : randField (withRand b r) = be r.toList := by
  rw [randField, toList_withRand, List.drop_left' (by simp)]

/-! The 80-bit increment. -/

/-- What the byte loop leaves and what it carries out: the bytes' value plus 1, below and above its power of 256
(41_identifier_buffer.md R114). -/
theorem incBytes_spec (xs : List Byte) :
    be (incBytes xs).1 = (be xs + 1) % 256 ^ xs.length ∧ (incBytes xs).2 = (be xs + 1) / 256 ^ xs.length := by
  induction xs with
  | nil => simp [incBytes]
  | cons x xs ih =>
    obtain ⟨low, high⟩ := ih
    simp only [incBytes, be_cons, incBytes_length, low, high, List.length_cons, pow_succ]
    generalize hP : 256 ^ xs.length = P at *
    have hP0 : 0 < P := by rw [← hP]; positivity
    have hr : (be xs + 1) % P < P := Nat.mod_lt _ hP0
    have key : x.toNat * P + be xs + 1 = (x.toNat + (be xs + 1) / P) * P + (be xs + 1) % P := by
      have := Nat.div_add_mod (be xs + 1) P
      rw [Nat.mul_comm] at this
      rw [add_mul, Nat.add_assoc, Nat.add_assoc, this]
    have hdiv : (x.toNat * P + be xs + 1) / P = x.toNat + (be xs + 1) / P := by
      rw [key, Nat.mul_comm, Nat.mul_add_div hP0, Nat.div_eq_of_lt hr, Nat.add_zero]
    have hmod : (x.toNat * P + be xs + 1) % P = (be xs + 1) % P := by
      rw [key, Nat.mul_comm, Nat.mul_add_mod, Nat.mod_eq_of_lt hr]
    constructor
    · rw [Nat.mod_mul, hdiv, hmod]; simp; ring
    · rw [← Nat.div_div_eq_div_mul, hdiv]

/-! A new identifier. -/

@[simp] theorem timeField_identifier (t : Time) (r : Bytes 10) : timeField (identifier t r) = t.toNat := by
  simp [identifier]

@[simp] theorem randField_identifier (t : Time) (r : Bytes 10) : randField (identifier t r) = be r.toList := by
  simp [identifier]

theorem identifier_get_high (t : Time) (r : Bytes 10) (k : Nat) (h : k < 10) : (identifier t r)[6 + k] = r[k] :=
  withRand_get_high _ _ _ h

end Sys2Proof.Machine
end

