-- ==== Sys2Proof/Laws/Codec.lean ====
section
/-! SUPPORT. The tables and the two codec functions, each with its small lemmas. -/

namespace Sys2Proof.Machine

@[simp] theorem encSym_ofNat_get (v : BitVec 5) : encTable[v.toNat] = encSym v := rfl

@[simp] theorem enc128_get (v i : Nat) (h : i < 26) : (enc128 v)[i] = encSym (symbolAt v i) := by
  simp [enc128]

/-- A symbol is the value's digit in base 32 at its position. -/
theorem symbolAt_toNat (v i : Nat) : (symbolAt v i).toNat = v / 2 ^ (125 - 5 * i) % 32 := by
  simp [symbolAt, Nat.shiftRight_eq_div_pow]

theorem toList_enc128 (v : Nat) : (enc128 v).toList = (List.range 26).map fun i => encSym (symbolAt v i) := by
  apply List.ext_getElem <;> simp

/-- The symbols of a 128-bit value make that value (00_scope.md R13). -/
theorem symbolsValue_symbols {v : Nat} (h : v < 2 ^ 128) : symbolsValue ((List.range 26).map (symbolAt v)) = v := by
  have hs : ((List.range 26).map (symbolAt v)).map BitVec.toNat =
      (List.range 26).map fun i => v / 32 ^ (26 - 1 - i) % 32 := by
    rw [List.map_map]
    refine List.map_congr_left fun i hi => ?_
    have hi' : i < 26 := List.mem_range.1 hi
    rw [Function.comp_apply, symbolAt_toNat, show 125 - 5 * i = 5 * (26 - 1 - i) by omega, pow_mul]
    rfl
  rw [symbolsValue, hs, bigEndian_digits, Nat.mod_eq_of_lt (h.trans (by norm_num))]

/-- The first symbol of a 128-bit value is its top three bits (42_string_codec.md R140). -/
theorem symbolAt_zero_le {v : Nat} (h : v < 2 ^ 128) : (symbolAt v 0).toNat ≤ 7 := by
  rw [symbolAt_toNat]
  have : v / 2 ^ (125 - 5 * 0) < 8 := Nat.div_lt_of_lt_mul (by norm_num; omega)
  omega

/-- A list of characters decodes exactly when each does. -/
theorem decSyms_eq_some {cs : List Byte} {ds : List (BitVec 5)} :
    decSyms cs = some ds ↔ cs.map decSym = ds.map some := by
  induction cs generalizing ds with
  | nil => cases ds <;> simp [decSyms]
  | cons c cs ih =>
    cases hc : decSym c <;> cases hcs : decSyms cs <;> cases ds <;> simp_all [decSyms]

theorem decSyms_length {cs : List Byte} {ds : List (BitVec 5)} (h : decSyms cs = some ds) : ds.length = cs.length := by
  simpa using (congrArg List.length (decSyms_eq_some.1 h)).symm

theorem decSyms_eq_none {cs : List Byte} : decSyms cs = none ↔ ∃ c ∈ cs, decSym c = none := by
  induction cs with
  | nil => simp [decSyms]
  | cons c cs ih => cases hc : decSym c <;> cases hcs : decSyms cs <;> simp_all [decSyms]

/-- What dec130 answers, once for all. -/
theorem dec130_ok {str : Bytes 26} {len : Word32} {v : Nat} (h : dec130 str len = .ok v) :
    len.toNat = 26 ∧ ∃ ds, decSyms str.toList = some ds ∧ firstAboveSeven ds = false ∧ v = symbolsValue ds := by
  unfold dec130 at h
  split at h
  · cases h
  · next hlen =>
    split at h
    · cases h
    · next ds hds =>
      split at h
      · cases h
      · next hf => exact ⟨by simpa using hlen, ds, hds, by simpa using hf, by cases h; rfl⟩

theorem dec130_error {str : Bytes 26} {len : Word32} {e : Err} (h : dec130 str len = .error e) :
    (len.toNat ≠ 26 ∧ e = .invalidLength) ∨ (len.toNat = 26 ∧ e = .invalidCharacter) := by
  unfold dec130 at h
  split at h
  · next hlen => cases h; exact .inl ⟨hlen, rfl⟩
  · next hlen =>
    refine .inr ⟨by simpa using hlen, ?_⟩
    split at h
    · cases h; rfl
    · split at h <;> cases h; rfl

theorem symbolsValue_lt (ds : List (BitVec 5)) : symbolsValue ds < 32 ^ ds.length := by
  simpa [symbolsValue] using bigEndian_lt (base := 32) (ds := ds.map BitVec.toNat) (by simp; intro d _; exact d.isLt)

end Sys2Proof.Machine
end

