-- ==== Sys2Proof/Laws/PerInstr.lean ====
section
/-! SUPPORT. What holds of each command as syntax, one lemma a constructor: its word is one its own row of the opcode map
admits (30_encoding.md R74). -/

namespace Sys2Proof.Laws.EncodesItsRow

open Sys2Proof.Machine

/-- The word of a well-formed command matches the row of the opcode map that bears its mnemonic. -/
def Statement (i : Instr) : Prop :=
  i.wellFormed = true → ∃ row ∈ opcodeMap, row.mnemonic = rowName i ∧ row.matchesWord (encode i)

/-- A command matches its row when the row's place in the map is known. -/
theorem of_place {i : Instr} (n : Fin 14) (hm : (opcodeMap[n]'n.isLt).mnemonic = rowName i)
    (h : i.wellFormed = true → encode i &&& (opcodeMap[n]'n.isLt).mask = (opcodeMap[n]'n.isLt).matchWord) :
    Statement i :=
  fun hw => ⟨opcodeMap[n]'n.isLt, List.getElem_mem _, hm, h hw⟩

theorem symEnc (imm8 : BitVec 8) : Statement (.symEnc imm8) := of_place 0 rfl (by revert imm8; decide)
theorem symDec (imm8 : BitVec 8) : Statement (.symDec imm8) := of_place 1 rfl (by revert imm8; decide)
theorem clear : Statement .clear := of_place 2 rfl (by decide)
theorem setTime : Statement .setTime := of_place 3 rfl (by decide)
theorem getTime : Statement .getTime := of_place 4 rfl (by decide)
theorem setRand : Statement .setRand := of_place 5 rfl (by decide)
theorem inc (throwOnOverflow : Bool) : Statement (.inc throwOnOverflow) :=
  of_place 6 rfl (by revert throwOnOverflow; decide)
theorem validBuf : Statement .validBuf := of_place 7 rfl (by decide)
theorem make (fromTimeOp alsoEncode : Bool) : Statement (.make fromTimeOp alsoEncode) :=
  of_place 8 rfl (by revert fromTimeOp alsoEncode; decide)
theorem encodeStr : Statement .encodeStr := of_place 9 rfl (by decide)
theorem decodeStr : Statement .decodeStr := of_place 10 rfl (by decide)
theorem validStr : Statement .validStr := of_place 11 rfl (by decide)
theorem seqInit (mitigate : Bool) : Statement (.seqInit mitigate) := of_place 12 rfl (by revert mitigate; decide)
theorem genMono (alsoEncode : Bool) : Statement (.genMono alsoEncode) :=
  of_place 13 rfl (by revert alsoEncode; decide)

end Sys2Proof.Laws.EncodesItsRow
end

