-- ==== Sys2Proof/Laws/Sequencer.lean ====
section
/-! SUPPORT. What the sequencer's shared operations do, each said once. -/

namespace Sys2Proof.Machine

theorem freshPath_eq_true {now : Time} {s : State} :
    freshPath now s = true ↔ s.seqCtrl.valid = false ∨ s.seqTime.toNat < now.toNat := by
  simp [freshPath]

theorem freshPath_eq_false {now : Time} {s : State} :
    freshPath now s = false ↔ s.seqCtrl.valid = true ∧ now.toNat ≤ s.seqTime.toNat := by
  simp [freshPath]

/-- Masking a random segment leaves the timestamp field. -/
@[simp] theorem timeField_mitigated (m : Bool) (b : Bytes 16) : timeField (mitigated m b) = timeField b := by
  cases m with
  | false => rfl
  | true => simp only [mitigated, timeField, Vector.toList_set, if_true, List.take_set_of_le (Nat.le_refl 6)]

/-- What emitting an identifier leaves in every register (43_sequencer.md R162, R168). -/
theorem emitIdentifier_next {e : Bool} {path : Path} {b : Bytes 16} {s t : State}
    (h : emitIdentifier e path b s = .next t) :
    t.buf = b ∧ t.seqBuf = b ∧ t.seqTime.toNat = timeField b ∧
      t.seqCtrl = { s.seqCtrl with valid := true, lastMode := path } ∧ t.status = s.status.afterSuccess ∧
      t.str = (if e then enc128 (bufValue b) else s.str) ∧ t.strLen = (if e then 26 else s.strLen) ∧
      t = { s with buf := t.buf, seqBuf := t.seqBuf, seqTime := t.seqTime, seqCtrl := t.seqCtrl, status := t.status,
                   str := t.str, strLen := t.strLen } := by
  have hb := timeField_lt b
  cases h
  cases e <;> simpa [alsoEncode] using hb

end Sys2Proof.Machine
end

