-- ==== Sys2Proof/Laws/Step.lean ====
section
/-! SUPPORT. What one step and each of its parts can do, each said once. -/

namespace Sys2Proof.Machine

theorem step_of_pending {s : State} {ev : PortEvent} {rest : List PortEvent} (h : s.pending = ev :: rest) :
    step s = performEvent ev { s with pending := rest } := by
  simp [step, h]

/-- A host access with reset released is a read or a write of the window. -/
theorem performAccess_released {a : HostAccess} {s : State} (h : s.resetAsserted = false) :
    performAccess a s =
      match a with
      | .read off n => hostRead off n s
      | .write off n v => hostWrite off n v s := by
  cases a <;> simp [performAccess, h]

/-- Every register is found at its own offset. -/
theorem regAt_offset (r : Reg) : regAt r.offset = some r := by
  cases r with
  | buf i => revert i; decide
  | seqBuf i => revert i; decide
  | str i => revert i; decide
  | _ => rfl

/-- An access reaches a register exactly at its offset and with its width. -/
theorem accessTarget_offset (r : Reg) : accessTarget r.offset r.width = .ok r := by
  cases r with
  | buf i => revert i; decide
  | seqBuf i => revert i; decide
  | str i => revert i; decide
  | _ => rfl

theorem regAt_some {off : Nat} {r : Reg} (h : regAt off = some r) : r.offset = off := by
  unfold regAt at h
  repeat' split at h
  all_goals first
    | (cases h; done)
    | (cases h; simp only [Reg.offset]; omega)

theorem accessTarget_ok {off n : Nat} {r : Reg} (h : accessTarget off n = .ok r) : r.offset = off ∧ r.width = n := by
  unfold accessTarget at h
  split at h
  · cases h
  · split at h
    · cases h
    · split at h
      · cases h
      · next r' hr =>
        split at h
        · next hn => cases h; exact ⟨regAt_some hr, hn.symm⟩
        · cases h

/-- A write to CMD, seen from the step. -/
theorem step_writeCmd {s : State} {v : Nat} {rest : List PortEvent} (hr : s.resetAsserted = false)
    (h : s.pending = .access (.write 0 4 v) :: rest) :
    step s = executeCommand (BitVec.ofNat 32 v) { s with pending := rest } := by
  rw [step_of_pending h]
  simp only [performEvent, performAccess, hr, hostWrite]
  rfl

/-- What a completed step did: nothing was pending, or the reset input took a level, or a read was answered, or a
register was written. -/
theorem step_cases {s t : State} (h : step s = .next t) :
    (s.pending = [] ∧ t = s) ∨
    (∃ a rest, s.pending = .resetLine a :: rest ∧ t = setResetLine a { s with pending := rest }) ∨
    (∃ r rest, s.pending = .access (.read r.offset r.width) :: rest ∧ s.resetAsserted = false ∧
      t = { afterRead r { s with pending := rest } with readData := some (readReg r { s with pending := rest }) }) ∨
    (∃ r v rest, s.pending = .access (.write r.offset r.width v) :: rest ∧ s.resetAsserted = false ∧
      writeReg r v { s with pending := rest } = .next t) := by
  cases hp : s.pending with
  | nil => left; simpa [step, hp] using h.symm
  | cons ev rest =>
    right
    rw [step_of_pending hp] at h
    cases ev with
    | resetLine a => left; exact ⟨a, rest, rfl, by simpa [performEvent] using h.symm⟩
    | access a =>
      right
      cases hr : s.resetAsserted with
      | true => simp [performEvent, performAccess, hr] at h
      | false =>
        simp only [performEvent, performAccess, hr] at h
        cases a with
        | read off n =>
          left
          simp only [hostRead] at h
          cases ht : accessTarget off n with
          | error e => simp [ht] at h
          | ok r =>
            obtain ⟨rfl, rfl⟩ := accessTarget_ok ht
            exact ⟨r, rest, rfl, rfl, by simpa [ht] using h.symm⟩
        | write off n v =>
          right
          simp only [hostWrite] at h
          cases ht : accessTarget off n with
          | error e => simp [ht] at h
          | ok r =>
            obtain ⟨rfl, rfl⟩ := accessTarget_ok ht
            exact ⟨r, v, rest, rfl, rfl, by simpa [ht] using h⟩

/-- What a completed command did, legal or not. -/
theorem executeCommand_cases {w : Word32} {s t : State} (h : executeCommand w s = .next t) :
    (∃ i, decode w = .ok i ∧ exec i { s with cmd := w } = .next t) ∨
    (∃ why, decode w = .error why ∧ raise .illegalCommand { s with cmd := w } = .next t) := by
  unfold executeCommand at h
  split at h
  · next i hi => exact .inl ⟨i, hi, h⟩
  · next why hw => exact .inr ⟨why, hw, h⟩

/-- What GEN_MONO did: a Fresh identifier, an Incrementing one, or Overflow. -/
theorem execGenMono_cases (e : Bool) (s : State) :
    (freshPath s.clockNow s = true ∧ execGenMono e s =
      emitIdentifier e .fresh (mitigated s.seqCtrl.mitigate (identifier s.clockNow s.randomNow))
        s.consumeClock.consumeRandom) ∨
    (freshPath s.clockNow s = false ∧ (inc80 s.seqBuf).2 = false ∧ execGenMono e s =
      emitIdentifier e .incrementing (withRand s.seqBuf (inc80 s.seqBuf).1) s.consumeClock) ∨
    (freshPath s.clockNow s = false ∧ (inc80 s.seqBuf).2 = true ∧
      execGenMono e s = raise .overflow s.consumeClock) := by
  cases hf : freshPath s.clockNow s with
  | true => left; simp [execGenMono, hf]
  | false =>
    right
    cases hc : (inc80 s.seqBuf).2 <;> simp [execGenMono, hf, hc]

end Sys2Proof.Machine
end

