-- ==== Sys2Proof/Tests/Slice0.lean ====
section
/-! SUPPORT. The model's own tests, expected results taken from spec/95_test_vectors.md (V-...) and 30_encoding.md, and
for each statement with hypotheses a witness that they can be met. -/

namespace Sys2Proof.Tests

open Sys2Proof.Machine

/-! Small states and ways to look at an outcome. -/

def bytes16 (l : List Nat) : Bytes 16 := Vector.ofFn fun i : Fin 16 => BitVec.ofNat 8 (l.getD i.val 0)
def bytes10 (l : List Nat) : Bytes 10 := Vector.ofFn fun i : Fin 10 => BitVec.ofNat 8 (l.getD i.val 0)
def bytes26 (l : List Nat) : Bytes 26 := Vector.ofFn fun i : Fin 26 => BitVec.ofNat 8 (l.getD i.val 0)

/-- The identifier of L1-1. -/
def sampleBuf : Bytes 16 :=
  bytes16 [0x01, 0x56, 0x3E, 0x3A, 0xB5, 0xD3, 0xD6, 0x76, 0x4C, 0x61, 0xEF, 0xB9, 0x93, 0x02, 0xBD, 0x5B]

/-- Its text, 01ARZ3NDEKTSV4RRFFQ69G5FAV, as P1 writes it byte by byte. -/
def sampleText : Bytes 26 :=
  bytes26 [0x30, 0x31, 0x41, 0x52, 0x5A, 0x33, 0x4E, 0x44, 0x45, 0x4B, 0x54, 0x53, 0x56, 0x34, 0x52, 0x52,
    0x46, 0x46, 0x51, 0x36, 0x39, 0x47, 0x35, 0x46, 0x41, 0x56]

/-- The same text in lower case (V-DEC-5). -/
def sampleLower : Bytes 26 :=
  bytes26 [0x30, 0x31, 0x61, 0x72, 0x7A, 0x33, 0x6E, 0x64, 0x65, 0x6B, 0x74, 0x73, 0x76, 0x34, 0x72, 0x72,
    0x66, 0x66, 0x71, 0x36, 0x39, 0x67, 0x35, 0x66, 0x61, 0x76]

/-- `c` and then 25 times `d`. -/
def text (c d : Nat) : Bytes 26 := bytes26 (c :: List.replicate 25 d)

def allOnes : Bytes 16 := bytes16 (List.replicate 16 0xFF)

def withBuf (b : Bytes 16) : State := { State.reset with buf := b }
def withStr (str : Bytes 26) (len : Word32) : State := { State.reset with buf := sampleBuf, str := str, strLen := len }

/-- Reset with the port's next events. -/
def due (evs : List PortEvent) : State := { State.reset with pending := evs }

/-- The input ports' next yields. -/
def feed (clock : List Time) (draws : List (Bytes 10)) (s : State) : State :=
  { s with clockIn := clock, randIn := draws }

def stateOf : Host.Outcome State Fault Refusal → Option State
  | .next t => some t
  | .fault _ => none
  | .refused _ => none

def refusalOf : Host.Outcome State Fault Refusal → Option Refusal
  | .next _ => none
  | .fault _ => none
  | .refused why => some why

/-- What a host reads of STATUS and of SEQ_CTRL, as the vectors print them. -/
def statusOf (s : State) : Nat := (statusWord s.status).toNat
def seqCtrlOf (s : State) : Nat := (seqCtrlWord s.seqCtrl).toNat

def afterStep (s : State) : State := (stateOf (step s)).getD s

theorem step_afterStep {s : State} (h : (stateOf (step s)).isSome = true) : step s = .next (afterStep s) := by
  unfold afterStep
  cases hs : step s <;> simp_all [stateOf]

/-! WellFormed, by its one check. -/

theorem test_symEnc_above_31_is_ill_formed : (Instr.symEnc 32).wellFormed = false := by decide
theorem test_symEnc_31_is_well_formed : (Instr.symEnc 31).wellFormed = true := by decide
theorem test_the_ill_formed_word_is_illegal : decode (encode (.symEnc 32)) = .error .symbolOutOfRange := by decide
/-- V-SYM-24. -/
theorem test_the_ill_formed_term_raises :
    (stateOf (exec (.symEnc 32) State.reset)).map statusOf = some 0xD := by decide

/-! Decoding: a word of each command, its bits from the patterns of 30_encoding.md R74. -/

theorem test_decode_symEnc : decode 0b00000000000111110000000000000001#32 = .ok (.symEnc 31) := by decide
theorem test_decode_symDec : decode 0b00000000110101010000000000000010#32 = .ok (.symDec 0b11010101) := by decide
theorem test_decode_clear : decode 0b00000000000000000000000000010000#32 = .ok .clear := by decide
theorem test_decode_setTime : decode 0b00000000000000000000000000010001#32 = .ok .setTime := by decide
theorem test_decode_getTime : decode 0b00000000000000000000000000010010#32 = .ok .getTime := by decide
theorem test_decode_setRand : decode 0b00000000000000000000000000010011#32 = .ok .setRand := by decide
theorem test_decode_inc : decode 0b00000000000000000000000100010100#32 = .ok (.inc true) := by decide
theorem test_decode_validBuf : decode 0b00000000000000000000000000010101#32 = .ok .validBuf := by decide
theorem test_decode_make_s : decode 0b00000000000000000000001000010110#32 = .ok (.make true false) := by decide
theorem test_decode_make_e : decode 0b00000000000000000000010000010110#32 = .ok (.make false true) := by decide
theorem test_decode_encode : decode 0b00000000000000000000000000100000#32 = .ok .encodeStr := by decide
theorem test_decode_decode : decode 0b00000000000000000000000000100001#32 = .ok .decodeStr := by decide
theorem test_decode_validStr : decode 0b00000000000000000000000000100010#32 = .ok .validStr := by decide
theorem test_decode_seqInit : decode 0b00000000000000000000100000110000#32 = .ok (.seqInit true) := by decide
theorem test_decode_genMono : decode 0b00000000000000000000010000110001#32 = .ok (.genMono true) := by decide

/-- V-ILL-1 to V-ILL-4. -/
theorem test_reserved_opcodes : [0x00000000#32, 0x00000003#32, 0x000000FF#32, 0x00000023#32].map decode =
    List.replicate 4 (.error .reservedOpcode) := by decide
/-- V-ILL-5 to V-ILL-10. -/
theorem test_flags_not_listed :
    [0x00000110#32, 0x00000214#32, 0x00000816#32, 0x00000116#32, 0x00000C31#32, 0x00000430#32].map decode =
    List.replicate 6 (.error .flagNotListed) := by decide
/-- V-ILL-11 to V-ILL-14. -/
theorem test_reserved_bits : [0x00001011#32, 0x00008020#32, 0x01000021#32, 0x80000002#32].map decode =
    List.replicate 4 (.error .reservedBitSet) := by decide
/-- V-ILL-15 and V-ILL-19. -/
theorem test_immediate_not_listed : [0x00010010#32, 0x00410022#32].map decode =
    List.replicate 2 (.error .immediateNotListed) := by decide
/-- V-ILL-16 to V-ILL-18. -/
theorem test_symbol_out_of_range : [0x00200001#32, 0x00E00001#32, 0x00FF0001#32].map decode =
    List.replicate 3 (.error .symbolOutOfRange) := by decide
/-- V-ILL-1, whole: only CMD and STATUS change. -/
theorem test_illegal_word_changes_status_only :
    stateOf (executeCommand 0 (withBuf sampleBuf)) = some (withError .illegalCommand (withBuf sampleBuf)) := by decide

/-- 30_encoding.md R77. -/
theorem test_assembly : [Instr.inc true, .make true true, .symEnc 31].map Instr.assembly =
    ["INC.T", "MAKE.S.E", "SYM_ENC #31"] := by decide

theorem test_table_word_decodes : decodeTableWord 32 0x00000616 = some (.make true true) := by decide
theorem test_fetch_word_runs :
    (stateOf (step (State.reset.withFetchWord 32 0x00000015))).map (fun s => (s.res, s.cmd)) = some (1, 0x15) := by decide

/-! The symbol codec. -/

/-- V-SYM-4. -/
theorem test_symEnc_skips_i : (stateOf (exec (.symEnc 18) State.reset)).map (·.res) = some 0x4A := by decide
/-- V-SYM-8. -/
theorem test_symEnc_highest : (stateOf (exec (.symEnc 31) State.reset)).map (·.res) = some 0x5A := by decide
/-- V-SYM-11. -/
theorem test_symDec_lower_case : (stateOf (exec (.symDec 0x61) State.reset)).map (·.res) = some 0xA := by decide
/-- V-SYM-17, and P5: RES keeps its value. -/
theorem test_symDec_excluded_letter :
    (stateOf (exec (.symDec 0x4F) { State.reset with res := 7 })).map (fun s => (s.res, statusOf s)) =
      some (7, 0xA) := by decide

/-! The identifier buffer. -/

/-- V-BUF-1. -/
theorem test_clear : (stateOf (exec .clear (withBuf allOnes))).map (·.buf) = some (bytes16 []) := by decide
/-- V-BUF-7's time on V-BUF-4's buffer. -/
theorem test_setTime_truncates :
    (stateOf (exec .setTime { withBuf allOnes with timeOp := 281474976710661 })).map (·.buf) =
      some (bytes16 ([0, 0, 0, 0, 0, 5] ++ List.replicate 10 0xFF)) := by decide
/-- V-BUF-9. -/
theorem test_getTime : (stateOf (exec .getTime (withBuf sampleBuf))).map (·.res) = some 1469922850259 := by decide
/-- V-BUF-12. -/
theorem test_setRand :
    (stateOf (exec .setRand (feed [] [bytes10 [0, 1, 2, 3, 4, 5, 6, 7, 8, 9]] (withBuf sampleBuf)))).map (·.buf) =
      some (bytes16 [0x01, 0x56, 0x3E, 0x3A, 0xB5, 0xD3, 0, 1, 2, 3, 4, 5, 6, 7, 8, 9]) := by decide
/-- V-BUF-15. -/
theorem test_inc_carries :
    (stateOf (exec (.inc false) (withBuf (bytes16 (List.replicate 14 0 ++ [0xFF, 0xFF]))))).map (·.buf) =
      some (bytes16 (List.replicate 13 0 ++ [1, 0, 0])) := by decide
/-- V-BUF-18. -/
theorem test_inc_t_overflows :
    (stateOf (exec (.inc true) (withBuf allOnes))).map (fun s => (s.buf, statusOf s)) = some (allOnes, 0xC) := by decide
/-- V-BUF-21. -/
theorem test_validBuf : (stateOf (exec .validBuf (withBuf allOnes))).map (·.res) = some 1 := by decide
/-- V-BUF-23. -/
theorem test_make_s_e :
    (stateOf (exec (.make true true) (feed [] [bytes10 []] { withBuf allOnes with timeOp := 1469922850259 }))).map
        (fun s => (s.buf, s.strLen, s.str.toList.take 10)) =
      some (bytes16 [0x01, 0x56, 0x3E, 0x3A, 0xB5, 0xD3], 26, sampleText.toList.take 10) := by decide
/-- V-BUF-27. -/
theorem test_make_from_the_clock :
    (stateOf (exec (.make false false) (feed [1000] [bytes10 [0, 1, 2]] { State.reset with timeOp := 7 }))).map
        (·.buf) = some (bytes16 [0, 0, 0, 0, 0x03, 0xE8, 0, 1, 2]) := by decide

/-! The string codec. -/

/-- V-ENC-3. -/
theorem test_encode : (stateOf (exec .encodeStr (withBuf sampleBuf))).map (·.str) = some sampleText := by decide
/-- V-ENC-8: a stale STR of 27 characters. -/
theorem test_encode_over_a_stale_string :
    (stateOf (exec .encodeStr (withStr (text 0x51 0x51) 27))).map (fun s => (s.str, s.strLen)) =
      some (sampleText, 26) := by decide
/-- V-DEC-5. -/
theorem test_decode_accepts_lower_case :
    (stateOf (exec .decodeStr { State.reset with str := sampleLower, strLen := 26 })).map (·.buf) =
      some sampleBuf := by decide
/-- V-DEC-16: the length is checked before the characters. -/
theorem test_decode_checks_the_length_first :
    (stateOf (exec .decodeStr (withStr (text 0x38 0x30) 25))).map (fun s => (s.buf, statusOf s)) =
      some (sampleBuf, 0x9) := by decide
/-- V-STR-6. -/
theorem test_validStr_accepts_the_highest :
    (stateOf (exec .validStr (withStr (text 0x37 0x5A) 26))).map (·.res) = some 1 := by decide
/-- V-STR-4. -/
theorem test_validStr_rejects_a_first_8 :
    (stateOf (exec .validStr (withStr (text 0x38 0x30) 26))).map (fun s => (s.res, statusOf s)) =
      some (0, 0) := by decide

/-! The sequencer. -/

/-- A generator that has emitted the identifier b at its own time, in the middle of a millisecond. -/
def running (mitigate : Bool) (b : Bytes 16) : State :=
  { State.reset with
    seqBuf := b
    seqTime := BitVec.ofNat 48 (timeField b)
    seqCtrl := { valid := true, mitigate := mitigate, lastMode := .fresh } }

/-- V-SEQ-21. -/
theorem test_seqInit_clears_only_the_sequencer :
    stateOf (exec (.seqInit true) { running false sampleBuf with buf := sampleBuf, strLen := 3 }) =
      some { State.reset with buf := sampleBuf, strLen := 3,
                              seqCtrl := { valid := false, mitigate := true, lastMode := .fresh } } := by decide
/-- V-SEQ-15. -/
theorem test_genMono_masks_a_fresh_draw :
    (stateOf (exec (.genMono false) (feed [77] [bytes10 (List.replicate 10 0xFF)] { State.reset with
        seqCtrl := { valid := false, mitigate := true, lastMode := .fresh } }))).map
        (fun s => (s.buf, seqCtrlOf s)) =
      some (bytes16 ([0, 0, 0, 0, 0, 0x4D, 0x7F] ++ List.replicate 9 0xFF), 0x3) := by decide
/-- V-SEQ-4: the clock has gone back. -/
theorem test_genMono_with_the_clock_behind :
    (stateOf (exec (.genMono false) (feed [999] [] (running false (bytes16
        [0, 0, 0, 0, 0x03, 0xE8, 0x12, 0x34, 0x56, 0x78, 0x9A, 0xBC, 0xDE, 0xF0, 0x00, 0xFF]))))).map
        (fun s => (s.buf, s.seqTime, seqCtrlOf s)) =
      some (bytes16 [0, 0, 0, 0, 0x03, 0xE8, 0x12, 0x34, 0x56, 0x78, 0x9A, 0xBC, 0xDE, 0xF0, 0x01, 0x00], 1000, 0x5) := by
  decide

/-! The window and host programs. -/

/-- V-ACC-1 to V-ACC-6. -/
theorem test_read_only_registers :
    ∀ a ∈ [HostAccess.write 0x04 4 0, .write 0x10 8 1, .write 0x18 8 1, .write 0x24 4 2, .write 0x28 8 9,
        .write 0x43 1 0x55],
      refusalOf (step (due [.access a])) = some .readOnlyRegister := by decide
/-- V-ACC-7, V-ACC-8, V-ACC-9 and V-ACC-11. -/
theorem test_wrong_widths :
    ∀ a ∈ [HostAccess.write 0x00 1 0x10, .write 0x00 8 0x10, .read 0x08 4, .read 0x30 4],
      refusalOf (step (due [.access a])) = some .wrongWidth := by decide
/-- V-ACC-10 and V-ACC-14, then V-ACC-12 and V-ACC-13. -/
theorem test_offsets_that_begin_no_register :
    (∀ a ∈ [HostAccess.read 0x0C 4, .read 0x01 1], refusalOf (step (due [.access a])) = some .misaligned) ∧
    (∀ a ∈ [HostAccess.write 0x6A 1 0, .read 0x7F 1], refusalOf (step (due [.access a])) = some .reservedOffset) ∧
    refusalOf (step (due [.access (.read 0x80 1)])) = some .outsideWindow := by decide
/-- 10_state.md R35: a read of NOW is a sample of the clock port. -/
theorem test_read_of_now :
    (stateOf (step (feed [1000] [] (due [.access (.read 0x18 8)])))).map (fun s => (s.readData, s.clockIn)) =
      some (some 1000, []) := by decide
/-- P5: STATUS reads as 0xA after an InvalidCharacter. -/
theorem test_read_of_status :
    (stateOf (step { due [.access (.read 0x04 4)] with status := { err := some .invalidCharacter, sticky := true } })).map
        (·.readData) = some (some 0xA) := by decide
/-- 30_encoding.md R79, with P1's encodings of the LOADSTR lines and of a command line. -/
theorem test_pseudo_instructions :
    (HostLine.loadStr [0x30, 0x31]).accesses = [.write 0x20 4 2, .write 0x50 1 0x30, .write 0x51 1 0x31] ∧
    (HostLine.setTime 5).accesses = [.write 0x08 8 5, .write 0x00 4 0x11] ∧
    (HostLine.makeStr true).accesses = [.write 0x00 4 0x616] ∧ HostLine.genStr.accesses = [.write 0x00 4 0x431] ∧
    HostLine.clone.accesses.take 2 = [.read 0x30 1, .read 0x31 1] ∧ HostLine.clone.accesses.length = 16 := by decide
/-- A LOADSTR of 27 characters writes 26 of them and the length 27 (V-DEC-7, V-ENC-8). -/
theorem test_loadStr_of_27 :
    ((HostLine.loadStr (List.replicate 27 0x51)).accesses.length, (HostLine.loadStr (List.replicate 27 0x51)).accesses.head?) =
      (27, some (.write 0x20 4 27)) := by decide

/-! Witnesses: for each statement with hypotheses, a concrete state and operands that meet them, clause by clause. -/

theorem witness_DecodeOfEncodeIsTheCommand : (Instr.symEnc 31).wellFormed = true ∧ (Instr.make true false).wellFormed = true := by
  decide

theorem witness_EncodeOfDecodeIsTheWord : decode 0x001F0001 = .ok (.symEnc 31) := by decide

theorem witness_LegalWordsAreTheOpcodeMap :
    (∃ i, decode 0x00000016 = .ok i) ∧ (∃ row ∈ opcodeMap, row.matchesWord 0x00000016) ∧
    (∀ row ∈ opcodeMap, ¬ row.matchesWord 0x00001016) ∧
    (∀ row ∈ opcodeMap, opField row.matchWord ≠ opField 0x00000003) ∧
    ∃ row ∈ opcodeMap, opField row.matchWord = opField 0x00001016 ∧ row.mask.getLsbD 12 = true ∧
      (0x00001016#32).getLsbD 12 = true := by
  unfold OpcodeRow.matchesWord
  exact ⟨⟨_, rfl⟩, by decide, by decide, by decide, by decide⟩

theorem witness_WritingCmdRunsTheDecodedCommand :
    let s := due [.access (.write 0 4 (0x15#32).toNat)]
    s.resetAsserted = false ∧ s.pending = .access (.write 0 4 (0x15#32).toNat) :: [] ∧ decode 0x15 = .ok .validBuf := by
  decide

theorem witness_WritingCmdRunsTheDecodedCommand_illegal :
    let s := due [.access (.write 0 4 (0x16000#32).toNat)]
    s.resetAsserted = false ∧ s.pending = .access (.write 0 4 (0x16000#32).toNat) :: [] ∧
      decode 0x16000 = .error .reservedBitSet := by decide

theorem witness_WritingCmdRunsTheDecodedCommand_read :
    let s := due [.access (.read 0 4)]
    s.resetAsserted = false ∧ s.pending = .access (.read 0 4) :: [] := by decide

theorem witness_ReservedOpcodesRaiseIllegalCommand :
    let s := due [.access (.write 0 4 (0x00000003#32).toNat)]
    s.resetAsserted = false ∧ s.pending = .access (.write 0 4 (0x00000003#32).toNat) :: [] ∧
      (∀ row ∈ opcodeMap, opField row.matchWord ≠ opField 0x00000003) ∧
      ∀ row ∈ opcodeMap, ¬ row.matchesWord 0x00001016 := by
  unfold OpcodeRow.matchesWord
  decide

theorem witness_EveryRegisterReadsZeroAfterReset : Reg.str 25 ≠ .now ∧ Reg.cmd ≠ .now := by decide

theorem witness_ResetInputRestoresEveryRegister :
    let held (ev : PortEvent) : State := { due [ev] with resetAsserted := true, buf := sampleBuf }
    (due [.resetLine true]).pending = .resetLine true :: [] ∧
      (held (.access (.read 0 4))).resetAsserted = true ∧
      (held (.access (.read 0 4))).pending = .access (.read 0 4) :: [] ∧
      (held (.resetLine false)).resetAsserted = true ∧ (held (.resetLine false)).pending = .resetLine false :: [] := by
  decide

theorem witness_WithNothingPendingTheEngineWaits : State.reset.pending = [] := by decide

theorem witness_EventsArePerformedInPortOrder :
    let s := due [.access (.write 0x3F 1 0xFE), .access (.read 0x3F 1)]
    s.pending = .access (.write 0x3F 1 0xFE) :: [.access (.read 0x3F 1)] ∧ step s = .next (afterStep s) :=
  ⟨rfl, step_afterStep (by decide)⟩

theorem witness_OnlyTheResetInputClearsSticky :
    let s : State := { due [.resetLine false] with
      resetAsserted := true, status := { err := some .overflow, sticky := true } }
    s.status.sticky = true ∧ step s = .next (afterStep s) ∧ (afterStep s).status.sticky = false :=
  ⟨rfl, step_afterStep (by decide), by decide⟩

theorem witness_HostReadReturnsTheRegister :
    let at_ (r : Reg) := due [.access (.read r.offset r.width)]
    (at_ (.str 25)).resetAsserted = false ∧
      (at_ (.str 25)).pending = .access (.read (Reg.str 25).offset (Reg.str 25).width) :: [] ∧ Reg.str 25 ≠ .now ∧
      (at_ .now).resetAsserted = false ∧ (at_ .now).pending = .access (.read Reg.now.offset Reg.now.width) :: [] := by
  decide

theorem witness_HostWriteStoresTheValue :
    ∀ a ∈ [HostAccess.write 0x08 8 (0xFFFFFFFFFFFFFFFF#64).toNat, .write 0x20 4 (0xFFFFFFFF#32).toNat,
        .write (0x30 + (15 : Fin 16).val) 1 (0xFE#8).toNat, .write (0x50 + (25 : Fin 26).val) 1 (0x56#8).toNat,
        .write 0x00 4 (0x10#32).toNat],
      (due [.access a]).resetAsserted = false ∧ (due [.access a]).pending = .access a :: [] := by
  simp [due, State.reset]

theorem witness_BufByteReadsBackWhatWasWritten :
    let s := due [.access (.write (0x30 + (15 : Fin 16).val) 1 (0xFE#8).toNat),
      .access (.read (0x30 + (0 : Fin 16).val) 1)]
    s.pending = .access (.write (0x30 + (15 : Fin 16).val) 1 (0xFE#8).toNat) ::
        .access (.read (0x30 + (0 : Fin 16).val) 1) :: [] ∧ step s = .next (afterStep s) :=
  ⟨rfl, step_afterStep (by decide)⟩

/-- Reads and writes on both sides of each clause's border: the last byte of STR and the offset after it, STATUS read
and STATUS written. -/
theorem witness_ForbiddenAccessesAreRefused :
    (due [.access (.read 0x69 1)]).resetAsserted = false ∧
      (∃ r : Reg, r.offset = 0x69 ∧ r.width = 1 ∧ r.hostWritable = true) ∧
      (∃ r : Reg, r.offset = 0x04 ∧ r.width = 4 ∧ r.hostWritable = false) ∧ refusalOf (step (due [.access (.read 0x04 4)])) = none ∧
      (refusalOf (step (due [.access (.write 0x04 4 0)]))).isSome = true ∧
      (refusalOf (step (due [.access (.read 0x6A 1)]))).isSome = true :=
  ⟨rfl, ⟨.str 25, by decide⟩, ⟨.status, by decide⟩, by decide, by decide, by decide⟩

theorem witness_ReservedOffsetsAreRefused :
    ∀ off ∈ [0x6A, 0x7F], 0x6A ≤ off ∧ off ≤ 0x7F ∧ (due [.access (.read off 8)]).resetAsserted = false ∧
      (due [.access (.read off 8)]).pending = .access (.read off 8) :: [] ∧
      (due [.access (.write off 1 0)]).pending = .access (.write off 1 0) :: [] := by decide

theorem witness_AnErrorChangesOnlyStatus :
    let s := withStr (text 0x38 0x30) 26
    exec .decodeStr s = .next (withError .invalidCharacter s) ∧
      (withError .invalidCharacter s).status.err = some .invalidCharacter := ⟨rfl, rfl⟩

theorem witness_CommandsRaiseOnlyTheirErrors :
    (Instr.inc true).wellFormed = true ∧
      exec (.inc true) (withBuf allOnes) = .next (withError .overflow (withBuf allOnes)) ∧
      (withError .overflow (withBuf allOnes)).status.err = some .overflow := ⟨rfl, rfl, rfl⟩

theorem witness_CommandsWriteOnlyTheirRegisters :
    (∃ t, exec (.genMono false) State.reset = .next t) ∧ Reg.str 0 ≠ .now ∧ Reg.str 0 ≠ .status ∧
      mayWrite (.genMono false) (.str 0) = false := ⟨⟨_, rfl⟩, by decide⟩

theorem witness_OnlyTheseCommandsTakeADraw :
    (∃ t, exec .setRand State.reset = .next t) ∧ takesDraw .setRand State.reset = true ∧
      (∃ t, exec (.make true false) { State.reset with timeOp := 2 ^ 48 } = .next t) ∧
      takesDraw (.make true false) { State.reset with timeOp := 2 ^ 48 } = false :=
  ⟨⟨_, rfl⟩, rfl, ⟨_, rfl⟩, by decide⟩

theorem witness_OnlyTheseCommandsSampleTheClock :
    (∃ t, exec (.make false false) State.reset = .next t) ∧ samplesClock (.make false false) = true ∧
      (∃ t, exec .setRand State.reset = .next t) ∧ samplesClock .setRand = false := ⟨⟨_, rfl⟩, rfl, ⟨_, rfl⟩, rfl⟩

theorem witness_ExcludedBytesAreInvalid :
    ((0x2F#8).toNat < 0x30 ∧ 0x7B ≤ (0x7B#8).toNat) ∧ (0x3A ≤ (0x3A#8).toNat ∧ (0x40#8).toNat ≤ 0x40) ∧
      0x5B ≤ (0x5B#8).toNat ∧ (0x60#8).toNat ≤ 0x60 := by decide

theorem witness_SymEncGivesTheCharacter : (31#8).toNat ≤ 31 ∧ 31 < (32#8).toNat := by decide

theorem witness_SymDecGivesTheValue : decSym 0x7A = some 31 ∧ decSym 0x75 = none := by decide

theorem witness_SetTimeWritesTheTruncatedTime : (5 : Fin 16).val < 6 ∧ 6 ≤ (6 : Fin 16).val := by decide

theorem witness_SetRandWritesTheDraw : (0 : Fin 16).val < 6 ∧ (5 : Fin 16).val < 6 := by decide

theorem witness_IncAddsOneOrOverflows :
    randField (withBuf allOnes).buf = 2 ^ 80 - 1 ∧ randField (withBuf zeroBuf).buf ≠ 2 ^ 80 - 1 := by decide

theorem witness_MakeBuildsAnIdentifier :
    ({ State.reset with timeOp := 2 ^ 48 - 1 } : State).timeOp.toNat ≤ 2 ^ 48 - 1 ∧
      2 ^ 48 - 1 < ({ State.reset with timeOp := 2 ^ 48 } : State).timeOp.toNat := by decide

theorem witness_DecodeFormulaIsTheSymbolTable :
    dec130 (text 0x37 0x5A) 26 = .ok (2 ^ 128 - 1) := by decide

theorem witness_DecodeChecksThenWritesTheValue :
    (withStr sampleText 25).strLen ≠ 26 ∧ (withStr sampleText 26).strLen = 26 ∧
      (∃ i : Fin 26, decSym (withStr (text 0x30 0x75) 26).str[i] = none) ∧
      (∀ i : Fin 26, decSym (withStr (text 0x38 0x38) 26).str[i] = some 8) ∧ 7 < (8#5).toNat ∧
      (∀ i : Fin 26, decSym (withStr (text 0x37 0x37) 26).str[i] = some 7) ∧ (7#5).toNat ≤ 7 := by decide

theorem witness_DecodeThenEncodeRestoresCanonicalStr : canonicalString (withStr (text 0x37 0x5A) 26) :=
  ⟨rfl, by decide, by decide⟩

theorem witness_DecodeThenEncodeGivesUpperCase :
    ∃ t, exec .decodeStr (withStr sampleLower 26) = .next t ∧ t.status.err = none := ⟨_, rfl, rfl⟩

theorem witness_FirstSymbolIsAtMostSeven :
    ∃ t, exec .decodeStr (withStr (text 0x37 0x5A) 26) = .next t ∧ t.status.err = none := ⟨_, rfl, rfl⟩

/-- Two states at the borders of GEN_MONO's paths: the clock one above SEQ_TIME, and equal to it. -/
def ticked : State := feed [1001] [bytes10 []] (running true (bytes16 [0, 0, 0, 0, 0x03, 0xE8]))
def still : State := feed [1000] [] (running true (bytes16 [0, 0, 0, 0, 0x03, 0xE8]))

/-- A full random segment, at a clock that stands still and then ticks. -/
def full (next : Time) : State :=
  feed [1000, next] [bytes10 []] (running false (bytes16 ([0, 0, 0, 0, 0x03, 0xE8] ++ List.replicate 10 0xFF)))

theorem witness_GenMonoPathSelection :
    (∃ t, exec (.genMono true) ticked = .next t ∧ t.status.err = none) ∧
      ∃ t, exec (.genMono true) still = .next t ∧ t.status.err = none := ⟨⟨_, rfl, rfl⟩, ⟨_, rfl, rfl⟩⟩

theorem witness_GenMonoFreshEmitsSampleAndDraw :
    (State.reset.seqCtrl.valid = false ∨ State.reset.seqTime.toNat < State.reset.clockNow.toNat) ∧
      (ticked.seqCtrl.valid = false ∨ ticked.seqTime.toNat < ticked.clockNow.toNat) :=
  ⟨.inl rfl, .inr (by decide)⟩

theorem witness_MitigationClearsTheTopBit :
    (∃ t, exec (.genMono false) ticked = .next t ∧ t.status.err = none ∧ t.seqCtrl.lastMode = .fresh ∧
      ticked.seqCtrl.mitigate = true) ∧
    (∃ t, exec (.genMono false) State.reset = .next t ∧ t.status.err = none ∧ t.seqCtrl.lastMode = .fresh ∧
      State.reset.seqCtrl.mitigate = false) ∧
    ∃ t, exec (.genMono false) still = .next t ∧ t.status.err = none ∧ t.seqCtrl.lastMode = .incrementing :=
  ⟨⟨_, rfl, rfl, rfl, rfl⟩, ⟨_, rfl, rfl, rfl, rfl⟩, ⟨_, rfl, rfl, rfl⟩⟩

theorem witness_GenMonoIncrementingAddsOne :
    (still.seqCtrl.valid = true ∧ still.clockNow.toNat ≤ still.seqTime.toNat ∧ randField still.seqBuf ≠ 2 ^ 80 - 1) ∧
    SequencerInv still ∧
    (full 1000).seqCtrl.valid = true ∧ (full 1000).clockNow.toNat ≤ (full 1000).seqTime.toNat ∧
      randField (full 1000).seqBuf = 2 ^ 80 - 1 := by
  exact ⟨by decide, ⟨by decide, by decide⟩, by decide⟩

theorem witness_GenMonoRecordsTheEmittedIdentifier :
    ∃ t, exec (.genMono false) still = .next t ∧ t.status.err = none := ⟨_, rfl, rfl⟩

theorem witness_GenMonoIgnoresTheHostsRegisters :
    (∃ t, exec (.genMono true) still = .next t ∧ t.status.err = none) ∧
      ∃ t, exec (.genMono true) (full 1000) = .next t := ⟨⟨_, rfl, rfl⟩, ⟨_, rfl⟩⟩

/-- A generator's next identifiers, a host write of BUF between them: the first and the last event are GEN_MONO. -/
def burst (first second : Time) : State :=
  { feed [first, second] [bytes10 [], bytes10 []] State.reset with
    pending := [.access (.write 0 4 0x31), .access (.write 0x3F 1 0xEE), .access (.write 0 4 0x31)] }

theorem witness_EveryStepKeepsTheSequencerInvariant :
    SequencerInv (burst 5 5) ∧ step (burst 5 5) = .next (afterStep (burst 5 5)) :=
  ⟨⟨by decide, by decide⟩, step_afterStep (by decide)⟩

/-- The step from s is a GEN_MONO that succeeds, as `decide` can see it. -/
theorem emits_afterStep {s : State} {rest : List PortEvent} (hp : s.pending = .access (.write 0 4 0x31) :: rest)
    (hs : (stateOf (step s)).isSome = true) (he : (afterStep s).status.err = none) : emits s (afterStep s) :=
  ⟨0x31, false, rest, hp, by decide, step_afterStep hs, he⟩

theorem witness_EmittedIdentifiersStrictlyIncrease :
    let s := burst 5 5
    emits s (afterStep s) ∧ sameGenerator (afterStep s) (afterStep (afterStep s)) ∧
      emits (afterStep (afterStep s)) (afterStep (afterStep (afterStep s))) :=
  ⟨emits_afterStep (rest := [.access (.write 0x3F 1 0xEE), .access (.write 0 4 0x31)]) (by decide) (by decide) (by decide),
    .tail (.refl _) (step_afterStep (by decide)) (by decide),
    emits_afterStep (rest := []) (by decide) (by decide) (by decide)⟩

theorem not_emits_of_pending {s t : State} {off n v : Nat} {rest : List PortEvent}
    (hp : s.pending = .access (.write off n v) :: rest) (h : off ≠ 0) : ¬ emits s t := by
  rintro ⟨_, _, _, hp', -⟩
  rw [hp] at hp'
  cases hp'
  exact h rfl

/-- The Overflow, a host write of BUF after it, and then a clock that stands still or ticks. -/
theorem witness_GenMonoOverflowEmitsNothing :
    ∀ next ∈ [(1000 : Time), 1001],
      let s : State := { full next with pending := [.access (.write 0x3F 1 0xEE)] }
      let u := afterStep (withError .overflow s.consumeClock)
      s.seqCtrl.valid = true ∧ s.clockNow.toNat ≤ s.seqTime.toNat ∧ randField s.seqBuf = 2 ^ 80 - 1 ∧
        nothingEmitted (withError .overflow s.consumeClock) u ∧
        (next = 1000 → u.clockNow.toNat ≤ s.seqTime.toNat) ∧ (next = 1001 → s.seqTime.toNat < u.clockNow.toNat) := by
  intro next hn
  have hcase : next = 1000 ∨ next = 1001 := by simpa using hn
  rcases hcase with rfl | rfl
  all_goals
    exact ⟨by decide, by decide, by decide,
      .tail (.refl _) (step_afterStep (by decide))
        ⟨by decide, not_emits_of_pending (off := 0x3F) (n := 1) (v := 0xEE) (rest := []) (by decide) (by decide)⟩,
      by decide, by decide⟩

/-- On the Incrementing path (the clock stands still) and on the Fresh path (the clock ticks). -/
theorem witness_ConsecutiveIdentifiersByPath :
    ∀ p ∈ [((5 : Time), Path.incrementing), (6, .fresh)],
      let s := burst 5 p.1
      emits s (afterStep s) ∧ nothingEmitted (afterStep s) (afterStep (afterStep s)) ∧
        emits (afterStep (afterStep s)) (afterStep (afterStep (afterStep s))) ∧
        (afterStep (afterStep (afterStep s))).seqCtrl.lastMode = p.2 := by
  intro p hp
  have hcase : p = (5, .incrementing) ∨ p = (6, .fresh) := by simpa using hp
  rcases hcase with rfl | rfl
  all_goals
    exact ⟨emits_afterStep (rest := [.access (.write 0x3F 1 0xEE), .access (.write 0 4 0x31)]) (by decide) (by decide)
        (by decide),
      .tail (.refl _) (step_afterStep (by decide))
        ⟨by decide, not_emits_of_pending (off := 0x3F) (n := 1) (v := 0xEE) (rest := [.access (.write 0 4 0x31)])
          (by decide) (by decide)⟩,
      emits_afterStep (rest := []) (by decide) (by decide) (by decide), by decide⟩

/-- Two increments are left, and the clock stands still for three samples. -/
theorem witness_IncrementBudgetIsExact :
    let s := feed [1000, 1000, 1000] []
      (running false (bytes16 ([0, 0, 0, 0, 0x03, 0xE8] ++ List.replicate 9 0xFF ++ [0xFD])))
    s.seqCtrl.valid = true ∧ s.seqTime.toNat = timeField s.seqBuf ∧
      (∀ j ≤ 2, (clockAhead j s).toNat ≤ s.seqTime.toNat) ∧ 2 = 2 ^ 80 - 1 - randField s.seqBuf := by decide

end Sys2Proof.Tests
end

section
/-! PROOF. 10_state.md, CMD and the random port: what a command leaves outside the registers it writes, said once for
every command, and the statements O23 and O5 that follow from it. -/

namespace Sys2Proof.Machine

/-! The frame of a command: it always completes (60_exceptions.md R187), and it writes nothing but registers. -/

/-- The state a command found, once the ports have yielded what the command takes: a clock sample
(60_exceptions.md R189) and a random draw (R190), or neither. -/
def afterPorts (i : Instr) (s : State) : State :=
  let sampled := if samplesClock i then s.consumeClock else s
  if takesDraw i s then sampled.consumeRandom else sampled

@[simp] theorem afterPorts_cmd (i : Instr) (s : State) : (afterPorts i s).cmd = s.cmd := by
  unfold afterPorts
  cases samplesClock i <;> cases takesDraw i s <;> rfl

theorem afterPorts_randDraws (i : Instr) (s : State) :
    (afterPorts i s).randDraws = if takesDraw i s then s.randDraws + 1 else s.randDraws := by
  unfold afterPorts
  cases samplesClock i <;> cases takesDraw i s <;> rfl

theorem afterPorts_randIn (i : Instr) (s : State) :
    (afterPorts i s).randIn = if takesDraw i s then s.randIn.tail else s.randIn := by
  unfold afterPorts
  cases samplesClock i <;> cases takesDraw i s <;> rfl

/-- The outcome is a next state that differs from u at most in the registers that commands write (10_state.md R38). -/
def CompletesFrom (u : State) (o : Host.Outcome State Fault Refusal) : Prop :=
  ∃ t, o = .next t ∧
    t = { u with status := t.status, res := t.res, strLen := t.strLen, seqCtrl := t.seqCtrl, seqTime := t.seqTime,
                 buf := t.buf, seqBuf := t.seqBuf, str := t.str }

theorem completesFrom_raise (e : Err) (s : State) : CompletesFrom s (raise e s) := ⟨_, rfl, rfl⟩

theorem completesFrom_succeed_withRes (s : State) (v : Nat) : CompletesFrom s (succeed (s.withRes v)) := ⟨_, rfl, rfl⟩

theorem completesFrom_makeAt (e : Bool) (t : Time) (s : State) : CompletesFrom s.consumeRandom (makeAt e t s) := by
  cases e <;> exact ⟨_, rfl, rfl⟩

theorem completesFrom_emitIdentifier (e : Bool) (path : Path) (b : Bytes 16) (s : State) :
    CompletesFrom s (emitIdentifier e path b s) := by
  cases e <;> exact ⟨_, rfl, rfl⟩

theorem completesFrom_execInc (throwOnOverflow : Bool) (s : State) : CompletesFrom s (execInc throwOnOverflow s) := by
  unfold execInc
  dsimp only
  split
  · exact completesFrom_raise _ s
  · exact ⟨_, rfl, rfl⟩

theorem completesFrom_execMake (src e : Bool) (s : State) :
    CompletesFrom (afterPorts (.make src e) s) (execMake src e s) := by
  cases src with
  | false => exact completesFrom_makeAt e _ s.consumeClock
  | true =>
    cases hlarge : timeOperandTooLarge s with
    | false => simpa [execMake, afterPorts, samplesClock, takesDraw, hlarge] using completesFrom_makeAt e _ s
    | true => simpa [execMake, afterPorts, samplesClock, takesDraw, hlarge] using completesFrom_raise _ s

theorem completesFrom_execGenMono (e : Bool) (s : State) :
    CompletesFrom (afterPorts (.genMono e) s) (execGenMono e s) := by
  obtain ⟨hpath, heq⟩ | ⟨hpath, -, heq⟩ | ⟨hpath, -, heq⟩ := execGenMono_cases e s <;>
    simp only [heq, afterPorts, samplesClock, takesDraw, hpath, if_true, Bool.false_eq_true, if_false]
  · exact completesFrom_emitIdentifier ..
  · exact completesFrom_emitIdentifier ..
  · exact completesFrom_raise ..

/-- Every command completes, and takes from the ports what 60_exceptions.md R189 and R190 say it takes. -/
theorem exec_completes (i : Instr) (s : State) : CompletesFrom (afterPorts i s) (exec i s) := by
  cases i with
  | symEnc imm8 =>
    simp only [exec, execSymEnc]
    split
    · exact completesFrom_succeed_withRes s _
    · exact completesFrom_raise _ s
  | symDec imm8 =>
    simp only [exec, execSymDec]
    split
    · exact completesFrom_succeed_withRes s _
    · exact completesFrom_raise _ s
  | inc t => exact completesFrom_execInc t s
  | make src e => exact completesFrom_execMake src e s
  | decodeStr =>
    simp only [exec, execDecode]
    split
    · exact completesFrom_raise _ s
    · exact ⟨_, rfl, rfl⟩
  | validStr =>
    simp only [exec, execValidStr]
    split <;> exact completesFrom_succeed_withRes s _
  | genMono e => exact completesFrom_execGenMono e s
  | clear | setTime | getTime | setRand | validBuf | encodeStr | seqInit _ => exact ⟨_, rfl, rfl⟩

/-- A completed command, as an equation for its next state. -/
theorem exec_next {i : Instr} {s t : State} (h : exec i s = .next t) :
    t = { afterPorts i s with status := t.status, res := t.res, strLen := t.strLen, seqCtrl := t.seqCtrl,
                              seqTime := t.seqTime, buf := t.buf, seqBuf := t.seqBuf, str := t.str } := by
  obtain ⟨t', hexec, hframe⟩ := exec_completes i s
  cases hexec.symm.trans h
  exact hframe

/-! The random port (10_state.md R36). -/

theorem readReg_setRandomPort (r : Reg) (s : State) (draws : List (Bytes 10)) (n : Nat) :
    readReg r { s with randIn := draws, randDraws := n } = readReg r s := by
  cases r <;> rfl

@[simp] theorem afterRead_randIn (r : Reg) (s : State) : (afterRead r s).randIn = s.randIn := by
  cases r <;> rfl

@[simp] theorem afterRead_randDraws (r : Reg) (s : State) : (afterRead r s).randDraws = s.randDraws := by
  cases r <;> rfl

theorem exec_randDraws {i : Instr} {s t : State} (h : exec i s = .next t) :
    t.randDraws = if takesDraw i s then s.randDraws + 1 else s.randDraws :=
  (congrArg State.randDraws (exec_next h)).trans (afterPorts_randDraws i s)

theorem exec_randIn {i : Instr} {s t : State} (h : exec i s = .next t) :
    t.randIn = if takesDraw i s then s.randIn.tail else s.randIn :=
  (congrArg State.randIn (exec_next h)).trans (afterPorts_randIn i s)

/-- Settles O23: no register's value depends on the random port, and a command's next state holds the port as
`afterPorts` leaves it. -/
theorem onlyTheseCommandsTakeADraw : Obligations.OnlyTheseCommandsTakeADraw := by
  unfold Obligations.OnlyTheseCommandsTakeADraw
  refine ⟨fun r s draws n => ⟨readReg_setRandomPort r s draws n, afterRead_randIn r s, afterRead_randDraws r s⟩, ?_⟩
  intro i s t h
  have hdraws := exec_randDraws h
  have hlist := exec_randIn h
  constructor <;> intro htakes <;> simp [hdraws, hlist, htakes]

/-! The command register (10_state.md R28). -/

theorem exec_cmd {i : Instr} {s t : State} (h : exec i s = .next t) : t.cmd = s.cmd :=
  (congrArg State.cmd (exec_next h)).trans (afterPorts_cmd i s)

theorem raise_eq_withError (e : Err) (s : State) : raise e s = .next (withError e s) := rfl

theorem executeCommand_of_legal {w : Word32} {i : Instr} (s : State) (h : decode w = .ok i) :
    executeCommand w s = exec i { s with cmd := w } := by
  simp [executeCommand, h]

theorem executeCommand_of_illegal {w : Word32} {why : IllegalWord} (s : State) (h : decode w = .error why) :
    executeCommand w s = .next (withError .illegalCommand { s with cmd := w }) := by
  simp [executeCommand, h, raise_eq_withError]

/-- A word written to CMD always runs to its end, and stays in CMD. -/
theorem executeCommand_completes (w : Word32) (s : State) : ∃ t, executeCommand w s = .next t ∧ t.cmd = w := by
  cases hw : decode w with
  | ok i =>
    obtain ⟨t, ht, -⟩ := exec_completes i { s with cmd := w }
    exact ⟨t, (executeCommand_of_legal s hw).trans ht, exec_cmd ht⟩
  | error why => exact ⟨_, executeCommand_of_illegal s hw, rfl⟩

/-- A read of a register, seen from the step. -/
theorem step_readReg {s : State} {r : Reg} {rest : List PortEvent} (hr : s.resetAsserted = false)
    (h : s.pending = .access (.read r.offset r.width) :: rest) :
    step s = .next { afterRead r { s with pending := rest } with
      readData := some (readReg r { s with pending := rest }) } := by
  simp [step_of_pending h, performEvent, performAccess, hr, hostRead, accessTarget_offset]

/-- Settles O5, by the step of a write to CMD and the two ways its word can decode. -/
theorem writingCmdRunsTheDecodedCommand : Obligations.WritingCmdRunsTheDecodedCommand := by
  unfold Obligations.WritingCmdRunsTheDecodedCommand
  intro s rest w hr
  refine ⟨fun hwrite => ?_, fun hread => step_readReg (r := .cmd) hr hread⟩
  have hstep : step s = executeCommand w { s with pending := rest } := by
    simpa using step_writeCmd hr hwrite
  rw [hstep]
  exact ⟨fun i hi => executeCommand_of_legal _ hi, fun why hw => executeCommand_of_illegal _ hw,
    executeCommand_completes w _⟩

end Sys2Proof.Machine
end

section
/-! PROOF. 20_memory.md: what a read, a write and a forbidden access of the register window answer, each said once, and
the statements O12, O13, O15 and O16 that follow from it. -/

namespace Sys2Proof.Machine

/-! An access with reset released, seen from the step. -/

theorem step_hostRead {s : State} {off n : Nat} {rest : List PortEvent} (hr : s.resetAsserted = false)
    (h : s.pending = .access (.read off n) :: rest) : step s = hostRead off n { s with pending := rest } :=
  (step_of_pending h).trans (performAccess_released (a := .read off n) hr)

theorem step_hostWrite {s : State} {off n v : Nat} {rest : List PortEvent} (hr : s.resetAsserted = false)
    (h : s.pending = .access (.write off n v) :: rest) : step s = hostWrite off n v { s with pending := rest } :=
  (step_of_pending h).trans (performAccess_released (a := .write off n v) hr)

/-- A write of a register, seen from the step. -/
theorem step_writeReg {s : State} {r : Reg} {v : Nat} {rest : List PortEvent} (hr : s.resetAsserted = false)
    (h : s.pending = .access (.write r.offset r.width v) :: rest) :
    step s = writeReg r v { s with pending := rest } := by
  simp [step_hostWrite hr h, hostWrite, accessTarget_offset]

/-! Reads (20_memory.md R55). -/

theorem readReg_setPending (r : Reg) (s : State) (events : List PortEvent) :
    readReg r { s with pending := events } = readReg r s := by
  cases r <;> rfl

/-- A read of any register but NOW takes nothing from the ports. -/
theorem afterRead_of_ne_now {r : Reg} (h : r ≠ .now) (s : State) : afterRead r s = s := by
  cases r with
  | now => exact absurd rfl h
  | _ => rfl

/-- Settles O12: the answer of a read, by `step_readReg`, with NOW apart. -/
theorem hostReadReturnsTheRegister : Obligations.HostReadReturnsTheRegister := by
  unfold Obligations.HostReadReturnsTheRegister
  constructor
  · intro s
    exact ⟨rfl, rfl, rfl, rfl, rfl, rfl, rfl, rfl, fun _ => rfl, fun _ => rfl, fun _ => rfl⟩
  · intro s r rest hr hread
    refine ⟨_, step_readReg hr hread, by simp [readReg_setPending], fun hne => ?_, ?_⟩
    · rw [afterRead_of_ne_now hne]
    · rintro rfl
      exact ⟨rfl, rfl⟩

/-! Writes (20_memory.md R56). -/

/-- Settles O13: each writable register's arm of `writeReg`, reached by `step_writeReg`; CMD's by `step_writeCmd`. -/
theorem hostWriteStoresTheValue : Obligations.HostWriteStoresTheValue := by
  unfold Obligations.HostWriteStoresTheValue
  intro s rest hr
  refine ⟨fun v h => ?_, fun v h => ?_, fun i v h => ?_, fun i v h => ?_, fun w h => ?_⟩
  · simpa [writeReg] using step_writeReg (r := .timeOp) hr h
  · simpa [writeReg] using step_writeReg (r := .strLen) hr h
  · simpa [writeReg] using step_writeReg (r := .buf i) hr h
  · simpa [writeReg] using step_writeReg (r := .str i) hr h
  · have hstep : step s = executeCommand w { s with pending := rest } := by
      simpa using step_writeCmd hr h
    exact ⟨hstep, hstep ▸ executeCommand_completes w _⟩

/-! Forbidden accesses (20_memory.md R52 to R54). -/

theorem accessTarget_eq_ok_iff {off n : Nat} {r : Reg} :
    accessTarget off n = .ok r ↔ r.offset = off ∧ r.width = n := by
  refine ⟨accessTarget_ok, ?_⟩
  rintro ⟨rfl, rfl⟩
  exact accessTarget_offset r

theorem accessTarget_reserved {off : Nat} (n : Nat) (hlo : 0x6A ≤ off) (hhi : off ≤ 0x7F) :
    accessTarget off n = .error .reservedOffset := by
  simp [accessTarget, hlo, show ¬ 0x80 ≤ off by omega]

/-- A read is refused exactly when it reaches no register whole. -/
theorem hostRead_refused_iff (off n : Nat) (s : State) :
    (∃ why, hostRead off n s = .refused why) ↔ ¬ ∃ r : Reg, r.offset = off ∧ r.width = n := by
  simp only [← accessTarget_eq_ok_iff, hostRead]
  cases accessTarget off n <;> simp

/-- A full-width write is refused exactly for the read-only registers: a write of CMD always runs to its end. -/
theorem writeReg_refused_iff (r : Reg) (v : Nat) (s : State) :
    (∃ why, writeReg r v s = .refused why) ↔ r.hostWritable = false := by
  cases r with
  | cmd =>
    obtain ⟨t, ht, -⟩ := executeCommand_completes (BitVec.ofNat 32 v) s
    simp [writeReg, Reg.hostWritable, ht]
  | _ => simp [writeReg, Reg.hostWritable]

/-- A write is refused exactly when it reaches no register whole that the host may write. -/
theorem hostWrite_refused_iff (off n v : Nat) (s : State) :
    (∃ why, hostWrite off n v s = .refused why) ↔
      ¬ ∃ r : Reg, r.offset = off ∧ r.width = n ∧ r.hostWritable = true := by
  simp only [← and_assoc, ← accessTarget_eq_ok_iff, hostWrite]
  cases accessTarget off n with
  | error why => simp
  | ok r => simpa using writeReg_refused_iff r v s

/-- Settles O15, by what a read and a write of the window refuse. -/
theorem forbiddenAccessesAreRefused : Obligations.ForbiddenAccessesAreRefused := by
  unfold Obligations.ForbiddenAccessesAreRefused
  intro s off n rest hr
  constructor
  · intro hread
    rw [step_hostRead hr hread]
    exact hostRead_refused_iff off n _
  · intro v hwrite
    rw [step_hostWrite hr hwrite]
    exact hostWrite_refused_iff off n v _

/-- Settles O16: no access finds a target at a reserved offset. -/
theorem reservedOffsetsAreRefused : Obligations.ReservedOffsetsAreRefused := by
  unfold Obligations.ReservedOffsetsAreRefused
  intro s off n v rest hr hlo hhi
  have htarget := accessTarget_reserved n hlo hhi
  constructor
  · intro hread
    simp [step_hostRead hr hread, hostRead, htarget]
  · intro hwrite
    simp [step_hostWrite hr hwrite, hostWrite, htarget]

end Sys2Proof.Machine
end

section
/-! PROOF. 30_encoding.md, decoding and legality: a command word is its fields, the decoder accepts exactly the words that
match the row of the command their opcode names, and the statements O3 and O6 that follow from it. -/

namespace Sys2Proof.Machine

/-! A word and its fields (30_encoding.md R71). -/

theorem getLsbD_eq_of_extractLsb'_eq {n lo len k : Nat} {w v : BitVec n}
    (h : w.extractLsb' lo len = v.extractLsb' lo len) (hlo : lo ≤ k) (hhi : k < lo + len) :
    w.getLsbD k = v.getLsbD k := by
  have hbit := congrArg (·.getLsbD (k - lo)) h
  simpa [Nat.add_sub_cancel' hlo, show k - lo < len by omega] using hbit

/-- The eight fields make up the whole word. -/
theorem word_eq_iff_fields (w v : Word32) :
    w = v ↔ opField w = opField v ∧ flagT w = flagT v ∧ flagS w = flagS v ∧ flagE w = flagE v ∧ flagM w = flagM v ∧
      reservedLow w = reservedLow v ∧ imm8Field w = imm8Field v ∧ reservedHigh w = reservedHigh v := by
  refine ⟨by rintro rfl; simp, ?_⟩
  rintro ⟨hop, hT, hS, hE, hM, hlow, himm, hhigh⟩
  refine BitVec.eq_of_getLsbD_eq fun k hk => ?_
  have hplace : k < 8 ∨ k = 8 ∨ k = 9 ∨ k = 10 ∨ k = 11 ∨ (12 ≤ k ∧ k < 16) ∨ (16 ≤ k ∧ k < 24) ∨ 24 ≤ k := by omega
  obtain h | rfl | rfl | rfl | rfl | ⟨h, h'⟩ | ⟨h, h'⟩ | h := hplace
  · exact getLsbD_eq_of_extractLsb'_eq hop k.zero_le (by omega)
  · exact hT
  · exact hS
  · exact hE
  · exact hM
  · exact getLsbD_eq_of_extractLsb'_eq hlow h h'
  · exact getLsbD_eq_of_extractLsb'_eq himm h h'
  · exact getLsbD_eq_of_extractLsb'_eq hhigh h hk

@[simp] theorem opField_and (w v : Word32) : opField (w &&& v) = opField w &&& opField v := BitVec.extractLsb'_and
@[simp] theorem flagT_and (w v : Word32) : flagT (w &&& v) = (flagT w && flagT v) := BitVec.getLsbD_and
@[simp] theorem flagS_and (w v : Word32) : flagS (w &&& v) = (flagS w && flagS v) := BitVec.getLsbD_and
@[simp] theorem flagE_and (w v : Word32) : flagE (w &&& v) = (flagE w && flagE v) := BitVec.getLsbD_and
@[simp] theorem flagM_and (w v : Word32) : flagM (w &&& v) = (flagM w && flagM v) := BitVec.getLsbD_and
@[simp] theorem reservedLow_and (w v : Word32) : reservedLow (w &&& v) = reservedLow w &&& reservedLow v :=
  BitVec.extractLsb'_and
@[simp] theorem imm8Field_and (w v : Word32) : imm8Field (w &&& v) = imm8Field w &&& imm8Field v :=
  BitVec.extractLsb'_and
@[simp] theorem reservedHigh_and (w v : Word32) : reservedHigh (w &&& v) = reservedHigh w &&& reservedHigh v :=
  BitVec.extractLsb'_and

/-! The rows of the opcode map (30_encoding.md R74). -/

/-- Every row fixes the opcode. -/
theorem opField_mask_of_mem : ∀ row ∈ opcodeMap, opField row.mask = BitVec.allOnes 8 := by decide

/-- Every row fixes the reserved bits. -/
theorem reserved_mask_of_mem :
    ∀ row ∈ opcodeMap, reservedLow row.mask = BitVec.allOnes 4 ∧ reservedHigh row.mask = BitVec.allOnes 8 := by decide

/-- Above the opcode no row asks for a 1. -/
theorem matchWord_lt_of_mem : ∀ row ∈ opcodeMap, row.matchWord.toNat < 2 ^ 8 := by decide

/-- Above the opcode the fields of a row's match value are 0. -/
theorem fields_matchWord_of_mem : ∀ row ∈ opcodeMap,
    flagT row.matchWord = false ∧ flagS row.matchWord = false ∧ flagE row.matchWord = false ∧
      flagM row.matchWord = false ∧ reservedLow row.matchWord = 0 ∧ imm8Field row.matchWord = 0 ∧
      reservedHigh row.matchWord = 0 := by decide

/-- The rows have distinct opcodes. -/
theorem row_eq_of_opField_eq : ∀ row ∈ opcodeMap, ∀ row' ∈ opcodeMap,
    opField row.matchWord = opField row'.matchWord → row = row' := by decide

theorem opField_of_matchesWord {row : OpcodeRow} {w : Word32} (hrow : row ∈ opcodeMap) (h : row.matchesWord w) :
    opField row.matchWord = opField w := by
  rw [← h, opField_and, opField_mask_of_mem row hrow, BitVec.and_allOnes]

/-- At most one row matches a word (30_encoding.md R75). -/
theorem matchesWord_unique {row row' : OpcodeRow} {w : Word32} (hrow : row ∈ opcodeMap) (hrow' : row' ∈ opcodeMap)
    (h : row.matchesWord w) (h' : row'.matchesWord w) : row = row' :=
  row_eq_of_opField_eq row hrow row' hrow'
    ((opField_of_matchesWord hrow h).trans (opField_of_matchesWord hrow' h').symm)

/-- A word that matches a row is 0 at every bit above the opcode that the row does not list as free. -/
theorem getLsbD_of_matchesWord {row : OpcodeRow} {w : Word32} {k : Nat} (hrow : row ∈ opcodeMap)
    (h : row.matchesWord w) (hk : 8 ≤ k) (hmask : row.mask.getLsbD k = true) : w.getLsbD k = false := by
  have hbit : row.matchWord.getLsbD k = false :=
    Nat.testBit_lt_two_pow ((matchWord_lt_of_mem row hrow).trans_le (Nat.pow_le_pow_right (by decide) hk))
  rw [← h] at hbit
  simpa [hmask] using hbit

theorem not_matchesWord_of_reservedOpcode {w : Word32}
    (h : ∀ row ∈ opcodeMap, opField row.matchWord ≠ opField w) : ∀ row ∈ opcodeMap, ¬ row.matchesWord w :=
  fun row hrow hmatch => h row hrow (opField_of_matchesWord hrow hmatch)

/-! Each command's own row. -/

/-- The place of a command's row in the opcode map. -/
def rowPlace : Instr → Fin 14
  | .symEnc _ => 0
  | .symDec _ => 1
  | .clear => 2
  | .setTime => 3
  | .getTime => 4
  | .setRand => 5
  | .inc _ => 6
  | .validBuf => 7
  | .make _ _ => 8
  | .encodeStr => 9
  | .decodeStr => 10
  | .validStr => 11
  | .seqInit _ => 12
  | .genMono _ => 13

/-- The row of the opcode map that bears a command's mnemonic. -/
def commandRow (i : Instr) : OpcodeRow := opcodeMap.get (rowPlace i)

theorem commandRow_mem (i : Instr) : commandRow i ∈ opcodeMap := List.get_mem _ _

theorem commandRow_mnemonic (i : Instr) : (commandRow i).mnemonic = rowName i := by cases i <;> rfl

/-- The flags a row fixes are those its command does not list. -/
theorem flags_commandRow_mask (i : Instr) :
    flagT (commandRow i).mask = !i.freeFields.t ∧ flagS (commandRow i).mask = !i.freeFields.s ∧
      flagE (commandRow i).mask = !i.freeFields.e ∧ flagM (commandRow i).mask = !i.freeFields.m := by
  cases i <;> simp only [commandRow, rowPlace, Instr.freeFields] <;> decide

theorem imm8Field_commandRow_symEnc (v : BitVec 8) : imm8Field (commandRow (.symEnc v)).mask = 0xE0 := by
  simp only [commandRow, rowPlace]
  decide

theorem imm8Field_commandRow_symDec (c : BitVec 8) : imm8Field (commandRow (.symDec c)).mask = 0 := by
  simp only [commandRow, rowPlace]
  decide

theorem imm8Field_commandRow_of_not_listed {i : Instr} (h : i.freeFields.imm8 = false) :
    imm8Field (commandRow i).mask = BitVec.allOnes 8 := by
  cases i with
  | symEnc | symDec => cases h
  | _ =>
    simp only [commandRow, rowPlace]
    decide

theorem flagsListed_iff (w : Word32) (f : FreeFields) :
    flagsListed w f = true ↔ (flagT w && !f.t) = false ∧ (flagS w && !f.s) = false ∧ (flagE w && !f.e) = false ∧
      (flagM w && !f.m) = false := by
  simp [flagsListed, and_assoc, or_iff_not_imp_left]

/-- A word matches a command's row exactly when it has the row's opcode and every other field keeps to the row's free
bits. -/
theorem matchesWord_commandRow_iff (i : Instr) (w : Word32) :
    (commandRow i).matchesWord w ↔ opField (commandRow i).matchWord = opField w ∧ flagsListed w i.freeFields = true ∧
      reservedLow w = 0 ∧ reservedHigh w = 0 ∧ imm8Field w &&& imm8Field (commandRow i).mask = 0 := by
  have hmem := commandRow_mem i
  obtain ⟨hT, hS, hE, hM⟩ := flags_commandRow_mask i
  obtain ⟨hlow, hhigh⟩ := reserved_mask_of_mem _ hmem
  obtain ⟨hT', hS', hE', hM', hlow', himm', hhigh'⟩ := fields_matchWord_of_mem _ hmem
  simp only [OpcodeRow.matchesWord, word_eq_iff_fields, opField_and, flagT_and, flagS_and, flagE_and, flagM_and,
    reservedLow_and, imm8Field_and, reservedHigh_and, opField_mask_of_mem _ hmem, BitVec.and_allOnes, hT, hS, hE, hM,
    hlow, hhigh, hT', hS', hE', hM', hlow', himm', hhigh', flagsListed_iff, eq_comm (a := opField w)]
  tauto

/-! The command an opcode names. -/

theorem opField_of_commandOf {w : Word32} {i : Instr} (h : commandOf w = some i) :
    opField (commandRow i).matchWord = opField w := by
  unfold commandOf at h
  split at h <;> cases h
  all_goals
    next hop => exact BitVec.eq_of_toNat_eq hop.symm

theorem commandOf_symEnc {w : Word32} {v : BitVec 8} (h : commandOf w = some (.symEnc v)) : v = imm8Field w := by
  unfold commandOf at h
  split at h <;> cases h
  rfl

/-- The opcode of a row names a command, and the row is that command's own. -/
theorem commandOf_of_opField {row : OpcodeRow} {w : Word32} (hrow : row ∈ opcodeMap)
    (h : opField row.matchWord = opField w) : ∃ i, commandOf w = some i ∧ commandRow i = row := by
  have hsome : (commandOf w).isSome = true := by
    rw [commandOf, ← h]
    fin_cases hrow <;> rfl
  obtain ⟨i, hi⟩ := Option.isSome_iff_exists.1 hsome
  exact ⟨i, hi, row_eq_of_opField_eq _ (commandRow_mem i) _ hrow ((opField_of_commandOf hi).trans h.symm)⟩

/-- What IMM8 must be in each command's row: 0 in a command that does not list it, and a symbol value in SYM_ENC
(30_encoding.md R73, R75). -/
theorem imm8_commandRow_iff {w : Word32} {i : Instr} (h : commandOf w = some i) :
    imm8Field w &&& imm8Field (commandRow i).mask = 0 ↔
      (imm8Field w ≠ 0 → i.freeFields.imm8 = true) ∧ i.wellFormed = true := by
  cases i with
  | symEnc v =>
    have hsymbol : ∀ x : BitVec 8, x &&& 0xE0 = 0 ↔ x.toNat ≤ 31 := by decide
    cases commandOf_symEnc h
    simpa [imm8Field_commandRow_symEnc, Instr.freeFields, Instr.wellFormed] using hsymbol (imm8Field w)
  | symDec c => simp [imm8Field_commandRow_symDec, Instr.freeFields, Instr.wellFormed]
  | _ =>
    rw [imm8Field_commandRow_of_not_listed rfl, BitVec.and_allOnes]
    simp [Instr.freeFields, Instr.wellFormed]

/-! Decoding (30_encoding.md R75). -/

theorem decode_eq_ok_iff (w : Word32) (i : Instr) :
    decode w = .ok i ↔ commandOf w = some i ∧ flagsListed w i.freeFields = true ∧ reservedLow w = 0 ∧
      reservedHigh w = 0 ∧ (imm8Field w ≠ 0 → i.freeFields.imm8 = true) ∧ i.wellFormed = true := by
  cases hi : commandOf w with
  | none =>
    simp only [decode, hi]
    split_ifs <;> simp
  | some j =>
    simp only [decode, hi]
    split_ifs <;> grind

/-- A word decodes to the command its opcode names exactly when it matches that command's row. -/
theorem decode_eq_ok_iff_matchesWord (w : Word32) (i : Instr) :
    decode w = .ok i ↔ commandOf w = some i ∧ (commandRow i).matchesWord w := by
  rw [decode_eq_ok_iff]
  refine and_congr_right fun hi => ?_
  rw [matchesWord_commandRow_iff, imm8_commandRow_iff hi]
  exact (and_iff_right (opField_of_commandOf hi)).symm

/-- A word is legal exactly when some row of the opcode map matches it. -/
theorem legal_iff_matchesWord (w : Word32) :
    (∃ i, decode w = .ok i) ↔ ∃ row ∈ opcodeMap, row.matchesWord w := by
  constructor
  · rintro ⟨i, hi⟩
    exact ⟨commandRow i, commandRow_mem i, ((decode_eq_ok_iff_matchesWord w i).1 hi).2⟩
  · rintro ⟨row, hrow, hmatch⟩
    obtain ⟨i, hi, rfl⟩ := commandOf_of_opField hrow (opField_of_matchesWord hrow hmatch)
    exact ⟨i, (decode_eq_ok_iff_matchesWord w i).2 ⟨hi, hmatch⟩⟩

/-- A word that no row matches raises IllegalCommand. -/
theorem executeCommand_of_not_matchesWord {w : Word32} (s : State) (h : ∀ row ∈ opcodeMap, ¬ row.matchesWord w) :
    executeCommand w s = .next (withError .illegalCommand { s with cmd := w }) := by
  cases hw : decode w with
  | ok i =>
    obtain ⟨row, hrow, hmatch⟩ := (legal_iff_matchesWord w).1 ⟨i, hw⟩
    exact absurd hmatch (h row hrow)
  | error why => exact executeCommand_of_illegal s hw

/-- Settles O3: the decoder accepts the words that match the row of the command their opcode names
(`legal_iff_matchesWord`), and a row fixes the opcode and every bit it does not list as free. -/
theorem legalWordsAreTheOpcodeMap : Obligations.LegalWordsAreTheOpcodeMap := by
  unfold Obligations.LegalWordsAreTheOpcodeMap
  intro w
  refine ⟨legal_iff_matchesWord w, fun row hrow row' hrow' => matchesWord_unique hrow hrow', fun i hi => ?_,
    fun s => executeCommand_of_not_matchesWord s, not_matchesWord_of_reservedOpcode, ?_⟩
  · have hmatch := ((decode_eq_ok_iff_matchesWord w i).1 hi).2
    exact ⟨⟨commandRow i, commandRow_mem i, hmatch, commandRow_mnemonic i⟩, fun s => executeCommand_of_legal s hi⟩
  · intro row hrow hop k hk hmask hbit row' hrow' hmatch
    obtain rfl : row' = row :=
      row_eq_of_opField_eq row' hrow' row hrow ((opField_of_matchesWord hrow' hmatch).trans hop.symm)
    exact absurd (getLsbD_of_matchesWord hrow hmatch hk hmask) (by simp [hbit])

/-- Settles O6: a reserved opcode matches no row, and a word that matches none raises IllegalCommand. -/
theorem reservedOpcodesRaiseIllegalCommand : Obligations.ReservedOpcodesRaiseIllegalCommand := by
  unfold Obligations.ReservedOpcodesRaiseIllegalCommand
  intro s rest w hr hwrite hunlisted
  have hnone : ∀ row ∈ opcodeMap, ¬ row.matchesWord w := hunlisted.elim not_matchesWord_of_reservedOpcode id
  have hstep : step s = executeCommand w { s with pending := rest } := by
    simpa using step_writeCmd hr hwrite
  rw [hstep]
  exact executeCommand_of_not_matchesWord _ hnone

end Sys2Proof.Machine
end

section
/-! PROOF. 40_symbol_codec.md: which bytes are INVALID, the words of SYM_ENC and SYM_DEC, what either leaves in RES or
raises, and the statements O27 to O29 that follow from it. -/

namespace Sys2Proof.Machine

/-! The INVALID bytes (40_symbol_codec.md R103). -/

/-- A byte is INVALID exactly when it lies in no range of DEC_TABLE. -/
theorem decSym_eq_none_iff (c : Byte) : decSym c = none ↔ ∀ r ∈ decTable, ¬ (r.lo ≤ c.toNat ∧ c.toNat ≤ r.hi) := by
  unfold decSym
  split
  · next r hfind =>
    have hrange : r.lo ≤ c.toNat ∧ c.toNat ≤ r.hi := by simpa using List.find?_some hfind
    simpa using ⟨r, List.mem_of_find?_eq_some hfind, hrange⟩
  · next hfind => simpa using hfind

/-- Every range of DEC_TABLE lies within the digits, the upper-case letters or the lower-case letters. -/
theorem alphanumeric_of_mem_decTable : ∀ r ∈ decTable,
    (0x30 ≤ r.lo ∧ r.hi ≤ 0x39) ∨ (0x41 ≤ r.lo ∧ r.hi ≤ 0x5A) ∨ (0x61 ≤ r.lo ∧ r.hi ≤ 0x7A) := by decide

theorem decSym_of_not_alphanumeric {c : Byte} (hdigit : ¬ (0x30 ≤ c.toNat ∧ c.toNat ≤ 0x39))
    (hupper : ¬ (0x41 ≤ c.toNat ∧ c.toNat ≤ 0x5A)) (hlower : ¬ (0x61 ≤ c.toNat ∧ c.toNat ≤ 0x7A)) :
    decSym c = none := by
  refine (decSym_eq_none_iff c).2 fun r hr hrange => ?_
  have hplace := alphanumeric_of_mem_decTable r hr
  omega

/-- Settles O27: the listed bytes by looking each up, the others because they are neither digits nor letters. -/
theorem excludedBytesAreInvalid : Obligations.ExcludedBytesAreInvalid := by
  unfold Obligations.ExcludedBytesAreInvalid
  refine ⟨by decide, fun c hc => ?_, fun c hc => ?_⟩ <;>
    exact decSym_of_not_alphanumeric (by omega) (by omega) (by omega)

/-! A command word made of its fields (30_encoding.md R71). -/

/-- A field holds the value put at its place. -/
theorem extractLsb'_fieldAt_self {n lo : Nat} (v : BitVec n) (h : lo + n ≤ 32) :
    (fieldAt lo v).extractLsb' lo n = v := by
  ext k hk
  simp [fieldAt, show lo + k < 32 by omega, hk]

/-- A value put elsewhere leaves a field 0. -/
theorem extractLsb'_fieldAt_disjoint {n lo start len : Nat} (v : BitVec n) (h : start + len ≤ lo ∨ lo + n ≤ start) :
    (fieldAt lo v).extractLsb' start len = 0 := by
  ext k hk
  obtain hbelow | habove := h
  · simp [fieldAt, show start + k < lo by omega]
  · simp [fieldAt, BitVec.getLsbD_of_ge v (start + k - lo) (by omega)]

@[simp] theorem opField_wordOfFields (op imm8 : BitVec 8) (t s e m : Bool) :
    opField (wordOfFields op imm8 t s e m) = op := by
  simp (disch := omega) [opField, wordOfFields, BitVec.extractLsb'_or, extractLsb'_fieldAt_self,
    extractLsb'_fieldAt_disjoint]

@[simp] theorem reservedLow_wordOfFields (op imm8 : BitVec 8) (t s e m : Bool) :
    reservedLow (wordOfFields op imm8 t s e m) = 0 := by
  simp (disch := omega) [reservedLow, wordOfFields, BitVec.extractLsb'_or, extractLsb'_fieldAt_disjoint]

@[simp] theorem imm8Field_wordOfFields (op imm8 : BitVec 8) (t s e m : Bool) :
    imm8Field (wordOfFields op imm8 t s e m) = imm8 := by
  simp (disch := omega) [imm8Field, wordOfFields, BitVec.extractLsb'_or, extractLsb'_fieldAt_self,
    extractLsb'_fieldAt_disjoint]

@[simp] theorem reservedHigh_wordOfFields (op imm8 : BitVec 8) (t s e m : Bool) :
    reservedHigh (wordOfFields op imm8 t s e m) = 0 := by
  simp (disch := omega) [reservedHigh, wordOfFields, BitVec.extractLsb'_or, extractLsb'_fieldAt_disjoint]

@[simp] theorem flagT_wordOfFields (op imm8 : BitVec 8) (t s e m : Bool) :
    flagT (wordOfFields op imm8 t s e m) = t := by
  simp [flagT, wordOfFields, fieldAt]

@[simp] theorem flagS_wordOfFields (op imm8 : BitVec 8) (t s e m : Bool) :
    flagS (wordOfFields op imm8 t s e m) = s := by
  simp [flagS, wordOfFields, fieldAt]

@[simp] theorem flagE_wordOfFields (op imm8 : BitVec 8) (t s e m : Bool) :
    flagE (wordOfFields op imm8 t s e m) = e := by
  simp [flagE, wordOfFields, fieldAt]

@[simp] theorem flagM_wordOfFields (op imm8 : BitVec 8) (t s e m : Bool) :
    flagM (wordOfFields op imm8 t s e m) = m := by
  simp [flagM, wordOfFields, fieldAt]

theorem encode_symEnc (v : BitVec 8) : encode (.symEnc v) = 0x00000001#32 ||| (v.setWidth 32 <<< 16) := by
  simp [encode, wordOfFields, fieldAt]

theorem encode_symDec (c : BitVec 8) : encode (.symDec c) = 0x00000002#32 ||| (c.setWidth 32 <<< 16) := by
  simp [encode, wordOfFields, fieldAt]

/-- The opcode and the operands of a command's word name the command, well formed or not. -/
theorem commandOf_encode (i : Instr) : commandOf (encode i) = some i := by
  cases i <;> simp [commandOf, encode]

/-- A command's word sets no flag and no immediate that its row does not list. -/
theorem decode_encode {i : Instr} (h : i.wellFormed = true) : decode (encode i) = .ok i := by
  refine (decode_eq_ok_iff _ i).2 ⟨commandOf_encode i, ?_⟩
  cases i <;> simp [encode, flagsListed, Instr.freeFields, h]

/-- A word whose command is not well formed raises IllegalCommand. -/
theorem executeCommand_of_not_wellFormed {w : Word32} {i : Instr} (s : State) (hi : commandOf w = some i)
    (hill : i.wellFormed = false) :
    executeCommand w s = .next (withError .illegalCommand { s with cmd := w }) := by
  cases hw : decode w with
  | error why => exact executeCommand_of_illegal s hw
  | ok j =>
    obtain ⟨hj, -, -, -, -, hwell⟩ := (decode_eq_ok_iff w j).1 hw
    cases hi.symm.trans hj
    simp [hill] at hwell

/-! The result register. -/

/-- The outcome is a success that leaves x in RES and changes nothing else but STATUS. -/
def LeavesResult (x : Word64) (s : State) (o : Host.Outcome State Fault Refusal) : Prop :=
  ∃ t, o = .next t ∧ t.res = x ∧ endsOk s t ∧ t = { s with res := t.res, status := t.status }

theorem leavesResult_succeed_withRes {n : Nat} (x : BitVec n) (s : State) :
    LeavesResult (x.setWidth 64) s (succeed (s.withRes x.toNat)) :=
  ⟨_, rfl, BitVec.ofNat_toNat 64 x, rfl, rfl⟩

theorem exec_symEnc_of_symbol {v : BitVec 8} (s : State) (h : v.toNat ≤ 31) :
    exec (.symEnc v) s = succeed (s.withRes (encSym (BitVec.ofNat 5 v.toNat)).toNat) := by
  simp [exec, execSymEnc, h]

theorem exec_symDec_of_some {c : Byte} {d : BitVec 5} (s : State) (h : decSym c = some d) :
    exec (.symDec c) s = succeed (s.withRes d.toNat) := by
  simp [exec, execSymDec, h]

theorem exec_symDec_of_none {c : Byte} (s : State) (h : decSym c = none) :
    exec (.symDec c) s = .next (withError .invalidCharacter s) := by
  simp [exec, execSymDec, h, raise_eq_withError]

/-- Settles O28: SYM_ENC's word decodes to its command or, with a value above 31, to one that is not well formed; the
characters are read off ENC_TABLE. -/
theorem symEncGivesTheCharacter : Obligations.SymEncGivesTheCharacter := by
  unfold Obligations.SymEncGivesTheCharacter
  simp only [← encode_symEnc]
  refine ⟨fun v hv => decode_encode (by simpa [Instr.wellFormed] using hv), fun v s hv => ?_, by decide,
    fun v s hv => ?_⟩
  · exact executeCommand_of_not_wellFormed s (commandOf_encode _) (by simpa [Instr.wellFormed] using hv)
  · rw [exec_symEnc_of_symbol s hv]
    exact leavesResult_succeed_withRes _ s

/-- Settles O29: SYM_DEC's word always decodes to its command, which then follows DEC_TABLE. -/
theorem symDecGivesTheValue : Obligations.SymDecGivesTheValue := by
  unfold Obligations.SymDecGivesTheValue
  simp only [← encode_symDec]
  refine ⟨fun c => decode_encode rfl, fun c d s hd => ?_, fun c s => exec_symDec_of_none s, by decide⟩
  rw [exec_symDec_of_some s hd]
  exact leavesResult_succeed_withRes d s

end Sys2Proof.Machine
end

section
/-! PROOF. 41_identifier_buffer.md: what each command on BUF leaves in BUF, RES and STR or raises, and the statements
O30 to O33 and O35 to O37 that follow from it. -/

namespace Sys2Proof.Machine

/-! The result register. -/

theorem zext64_toNat_of_lt {v : Nat} (h : v < 2 ^ 64) : (zext64 v).toNat = v := by
  rw [zext64, BitVec.toNat_ofNat, Nat.mod_eq_of_lt h]

/-- Settles O32: the field is below 2^48, so RES holds it whole. -/
theorem getTimeReadsTheTimestamp : Obligations.GetTimeReadsTheTimestamp := by
  unfold Obligations.GetTimeReadsTheTimestamp
  refine ⟨by decide, fun s => ?_⟩
  have hfield := timeField_lt s.buf
  have hres : (zext64 (timeField s.buf)).toNat = timeField s.buf := zext64_toNat_of_lt (by omega)
  exact ⟨_, rfl, hres, hres.trans_le (Nat.le_sub_one_of_lt hfield), rfl, rfl⟩

/-- Settles O36: the answer is 1 without a look at BUF. -/
theorem validBufIsAlwaysOne : Obligations.ValidBufIsAlwaysOne := by
  unfold Obligations.ValidBufIsAlwaysOne
  exact ⟨by decide, leavesResult_succeed_withRes 1#64⟩

/-! BUF whole and its two fields. -/

theorem zeroBuf_get (i : Fin 16) : zeroBuf[i] = 0 := by simp [zeroBuf]

/-- Settles O30, by the bytes of `zeroBuf`. -/
theorem clearZeroesBuf : Obligations.ClearZeroesBuf := by
  unfold Obligations.ClearZeroesBuf
  exact ⟨by decide, fun s => ⟨_, rfl, zeroBuf_get, rfl, rfl⟩⟩

@[simp] theorem timeOperand_toNat (s : State) : (timeOperand s).toNat = s.timeOp.toNat % 2 ^ 48 :=
  BitVec.toNat_setWidth ..

/-- Byte i of the truncated TIME_OP is 8 bits of TIME_OP itself: the cut at bit 48 lies above them. -/
theorem withTime_timeOperand_get (b : Bytes 16) (s : State) {i : Nat} (h : i < 6) :
    (withTime b (timeOperand s))[i] = s.timeOp.extractLsb' (8 * (5 - i)) 8 := by
  have hbyte : (withTime b (timeOperand s))[i] = (timeOperand s).extractLsb' (8 * (5 - i)) 8 :=
    (withTime_get b _ i (by omega)).trans (if_pos h)
  rw [hbyte]
  ext k hk
  simp [timeOperand, show 8 * (5 - i) + k < 48 by omega]

theorem withTime_get_high (b : Bytes 16) (t : Time) {i : Nat} (h : i < 16) (hi : 6 ≤ i) : (withTime b t)[i] = b[i] := by
  simp [withTime_get, Nat.not_lt.2 hi]

/-- Settles O31, by what writing the timestamp field leaves in each byte. -/
theorem setTimeWritesTheTruncatedTime : Obligations.SetTimeWritesTheTruncatedTime := by
  unfold Obligations.SetTimeWritesTheTruncatedTime
  refine ⟨by decide, fun s => ⟨_, rfl, ?_, fun i hi => ?_, fun i hi => ?_, rfl, rfl⟩⟩
  · exact (timeField_withTime ..).trans (timeOperand_toNat s)
  · exact withTime_timeOperand_get _ s hi
  · exact withTime_get_high _ _ i.isLt hi

/-- Settles O33, by what writing the random segment leaves in each byte. -/
theorem setRandWritesTheDraw : Obligations.SetRandWritesTheDraw := by
  unfold Obligations.SetRandWritesTheDraw
  refine ⟨by decide, fun s => ⟨_, rfl, fun k => ?_, fun i hi => ?_, rfl, rfl⟩⟩
  · exact withRand_get_high _ _ k k.isLt
  · exact withRand_get_low _ _ hi

/-! INC (41_identifier_buffer.md R114, R115). -/

/-- The ten incremented bytes make the random segment plus 1, modulo 2^80. -/
theorem be_inc80 (b : Bytes 16) : be (inc80 b).1.toList = (randField b + 1) % 2 ^ 80 := by
  simpa [inc80, randField] using (incBytes_spec (b.toList.drop 6)).1

/-- The increment carries out exactly from the highest random segment. -/
theorem inc80_carry_iff (b : Bytes 16) : (inc80 b).2 = true ↔ randField b = 2 ^ 80 - 1 := by
  have hcarry : (incBytes (b.toList.drop 6)).2 = (randField b + 1) / 2 ^ 80 := by
    simpa [randField] using (incBytes_spec (b.toList.drop 6)).2
  have hlt := randField_lt b
  simp only [inc80, hcarry, beq_iff_eq]
  omega

/-- INC raises Overflow when the increment carries out and T = 1. -/
theorem exec_inc_of_overflow {s : State} (h : (inc80 s.buf).2 = true) :
    exec (.inc true) s = .next (withError .overflow s) := by
  simp [exec, execInc, h, raise_eq_withError]

/-- INC succeeds when the increment does not carry out, or T = 0. -/
theorem exec_inc_of_not_overflow {s : State} {throwOnOverflow : Bool}
    (h : ((inc80 s.buf).2 && throwOnOverflow) = false) :
    exec (.inc throwOnOverflow) s = succeed { s with buf := withRand s.buf (inc80 s.buf).1 } := by
  simp [exec, execInc, h]

/-- Settles O35: T and the carry decide between the two ends, and the carry is read off the random segment. -/
theorem incAddsOneOrOverflows : Obligations.IncAddsOneOrOverflows := by
  unfold Obligations.IncAddsOneOrOverflows
  refine ⟨by decide, by decide, fun throw s => ⟨fun h => ?_, fun h => ?_⟩⟩
  · have hend : ((inc80 s.buf).2 && throw) = false := by
      obtain hfield | rfl := h
      · rw [Bool.eq_false_iff.2 (mt (inc80_carry_iff s.buf).1 hfield), Bool.false_and]
      · exact Bool.and_false _
    refine ⟨_, exec_inc_of_not_overflow hend, ?_, fun i hi => ?_, rfl, rfl⟩
    · exact (randField_withRand ..).trans (be_inc80 s.buf)
    · exact withRand_get_low _ _ hi
  · exact exec_inc_of_overflow ((inc80_carry_iff s.buf).2 h)

/-! MAKE (41_identifier_buffer.md R117). -/

/-- The outcome is a success with an identifier of time v and the next draw in BUF, its text in STR with E = 1, that
draw taken, and nothing else but STATUS changed. -/
def BuildsIdentifier (e : Bool) (v : Nat) (s : State) (o : Host.Outcome State Fault Refusal) : Prop :=
  ∃ t, o = .next t ∧ timeField t.buf = v ∧ (∀ k : Fin 10, t.buf[6 + k.val] = s.randomNow[k]) ∧ textWritten e s t ∧
    endsOk s t ∧ t = { s.consumeRandom with buf := t.buf, str := t.str, strLen := t.strLen, status := t.status }

theorem buildsIdentifier_makeAt (e : Bool) (t : Time) (s : State) : BuildsIdentifier e t.toNat s (makeAt e t s) := by
  have htime := timeField_identifier t s.randomNow
  have hdraw : ∀ k : Fin 10, (identifier t s.randomNow)[6 + k.val] = s.randomNow[k] := fun k =>
    identifier_get_high t _ k k.isLt
  cases e with
  | false => exact ⟨_, rfl, htime, hdraw, ⟨nofun, fun _ => ⟨rfl, rfl⟩⟩, rfl, rfl⟩
  | true => exact ⟨_, rfl, htime, hdraw, ⟨fun _ => ⟨rfl, rfl⟩, nofun⟩, rfl, rfl⟩

theorem timeOperandTooLarge_iff (s : State) : timeOperandTooLarge s = true ↔ 2 ^ 48 - 1 < s.timeOp.toNat :=
  decide_eq_true_iff

theorem exec_make_of_too_large {s : State} (e : Bool) (h : 2 ^ 48 - 1 < s.timeOp.toNat) :
    exec (.make true e) s = .next (withError .timestampOutOfRange s) := by
  simp [exec, execMake, (timeOperandTooLarge_iff s).2 h, raise_eq_withError]

/-- An accepted TIME_OP is the identifier's time whole: the cut to 48 bits takes nothing from it. -/
theorem buildsIdentifier_exec_make_of_le {s : State} (e : Bool) (h : s.timeOp.toNat ≤ 2 ^ 48 - 1) :
    BuildsIdentifier e s.timeOp.toNat s (exec (.make true e) s) := by
  have hsmall : timeOperandTooLarge s = false :=
    Bool.eq_false_iff.2 (mt (timeOperandTooLarge_iff s).1 (Nat.not_lt.2 h))
  have htime : (timeOperand s).toNat = s.timeOp.toNat := by rw [timeOperand_toNat]; omega
  have hexec : exec (.make true e) s = makeAt e (timeOperand s) s := by simp [exec, execMake, hsmall]
  rw [hexec, ← htime]
  exact buildsIdentifier_makeAt e _ s

/-- Settles O37: both sources of the time end in `makeAt`, but for the refused TIME_OP. -/
theorem makeBuildsAnIdentifier : Obligations.MakeBuildsAnIdentifier := by
  unfold Obligations.MakeBuildsAnIdentifier
  refine ⟨by decide, fun e s => ⟨buildsIdentifier_exec_make_of_le e, exec_make_of_too_large e, ?_⟩⟩
  exact buildsIdentifier_makeAt e s.clockNow s.consumeClock

end Sys2Proof.Machine
end

section
/-! PROOF. 42_string_codec.md, the two commands: the symbol formula with its mask, what `dec130` answers in each of its
cases, the sum that a string's symbols make, and the statements O40 and O41 that follow from them. -/

namespace Sys2Proof.Machine

/-! ENCODE (42_string_codec.md R140, R142). -/

/-- R140's `AND 31` is the cut to five bits. -/
theorem symbolAt_eq_ofNat_and (v i : Nat) : symbolAt v i = BitVec.ofNat 5 ((v >>> (125 - 5 * i)) &&& 31) := by
  apply BitVec.eq_of_toNat_eq
  simp [symbolAt, Nat.and_two_pow_sub_one_eq_mod _ 5]

/-- Settles O40, by the characters of `enc128`. -/
theorem encodeWritesTheText : Obligations.EncodeWritesTheText := by
  unfold Obligations.EncodeWritesTheText
  refine ⟨by decide, fun s => ⟨_, rfl, fun i => ?_, rfl, rfl, rfl⟩⟩
  rw [← symbolAt_eq_ofNat_and]
  exact enc128_get (bufValue s.buf) i i.isLt

/-! The symbols of a string (42_string_codec.md R141). -/

theorem bigEndian_ofFn (base : Nat) :
    ∀ {n : Nat} (f : Fin n → Nat), bigEndian base (List.ofFn f) = ∑ i : Fin n, f i * base ^ (n - 1 - i.val)
  | 0, _ => by simp
  | n + 1, f => by
    have htail : ∀ i : Fin n, n - (i.val + 1) = n - 1 - i.val := fun i => by omega
    rw [List.ofFn_succ, bigEndian_cons, bigEndian_ofFn base fun i => f i.succ, Fin.sum_univ_succ]
    simp [htail]

/-- The string value is R141's sum of `d_i * 2^(5*(n-1-i))`. -/
theorem symbolsValue_ofFn {n : Nat} (d : Fin n → BitVec 5) :
    symbolsValue (List.ofFn d) = ∑ i : Fin n, (d i).toNat * 2 ^ (5 * (n - 1 - i.val)) := by
  simp [symbolsValue, List.map_ofFn, bigEndian_ofFn, pow_mul]

/-- A first symbol of at most 7 keeps the value within the three bits above the other symbols'. -/
theorem symbolsValue_cons_lt {d : BitVec 5} (ds : List (BitVec 5)) (h : d.toNat ≤ 7) :
    symbolsValue (d :: ds) < 8 * 32 ^ ds.length := by
  have hrest := symbolsValue_lt ds
  have hfirst := Nat.mul_le_mul_right (32 ^ ds.length) h
  simp only [symbolsValue, List.map_cons, bigEndian_cons, List.length_map] at hrest ⊢
  omega

theorem decSyms_toList_of_some {n : Nat} {cs : Bytes n} {d : Fin n → BitVec 5}
    (h : ∀ i : Fin n, decSym cs[i] = some (d i)) : decSyms cs.toList = some (List.ofFn d) := by
  refine decSyms_eq_some.2 (List.ext_getElem (by simp) fun i hi _ => ?_)
  simpa using h ⟨i, by simpa using hi⟩

theorem decSyms_toList_of_none {n : Nat} {cs : Bytes n} {i : Fin n} (h : decSym cs[i] = none) :
    decSyms cs.toList = none :=
  decSyms_eq_none.2 ⟨cs[i], by simp, h⟩

theorem firstAboveSeven_ofFn {n : Nat} (d : Fin (n + 1) → BitVec 5) :
    firstAboveSeven (List.ofFn d) = decide (7 < (d 0).toNat) := by
  simp [firstAboveSeven, List.ofFn_succ]

/-! The answers of `dec130`, in the order of its checks (42_string_codec.md R141, 60_exceptions.md R184). -/

theorem dec130_of_length_ne (str : Bytes 26) {len : Word32} (h : len ≠ 26) : dec130 str len = .error .invalidLength :=
  if_pos (mt BitVec.eq_of_toNat_eq h)

theorem dec130_of_invalid {str : Bytes 26} {i : Fin 26} (h : decSym str[i] = none) :
    dec130 str 26 = .error .invalidCharacter := by
  simp [dec130, decSyms_toList_of_none h]

theorem dec130_of_symbols {str : Bytes 26} {d : Fin 26 → BitVec 5} (h : ∀ i : Fin 26, decSym str[i] = some (d i)) :
    dec130 str 26 = if 7 < (d 0).toNat then .error .invalidCharacter else .ok (symbolsValue (List.ofFn d)) := by
  simp only [dec130, decSyms_toList_of_some h, firstAboveSeven_ofFn, decide_eq_true_eq]
  exact if_neg (by decide)

/-! DECODE (42_string_codec.md R143). -/

theorem exec_decodeStr_of_error {s : State} {e : Err} (h : dec130 s.str s.strLen = .error e) :
    exec .decodeStr s = .next (withError e s) := by
  simp [exec, execDecode, h, raise_eq_withError]

theorem exec_decodeStr_of_ok {s : State} {v : Nat} (h : dec130 s.str s.strLen = .ok v) :
    exec .decodeStr s = succeed { s with buf := beBytes 16 v } := by
  simp [exec, execDecode, h]

/-- Settles O41: DECODE ends as `dec130` answers, and the value of an accepted string fits BUF's 128 bits. -/
theorem decodeChecksThenWritesTheValue : Obligations.DecodeChecksThenWritesTheValue := by
  unfold Obligations.DecodeChecksThenWritesTheValue
  refine ⟨by decide, fun s => ⟨fun hlen => ?_, fun hlen ⟨i, hi⟩ => ?_,
    fun d hlen hd => ⟨fun hfirst => ?_, fun hfirst => ?_⟩⟩⟩
  · exact exec_decodeStr_of_error (dec130_of_length_ne s.str hlen)
  · exact exec_decodeStr_of_error (hlen ▸ dec130_of_invalid hi)
  · exact exec_decodeStr_of_error (hlen ▸ (dec130_of_symbols hd).trans (if_pos hfirst))
  · have hok : dec130 s.str s.strLen = .ok (symbolsValue (List.ofFn d)) :=
      hlen ▸ (dec130_of_symbols hd).trans (if_neg (Nat.not_lt.2 hfirst))
    have hfits : symbolsValue (List.ofFn d) < 2 ^ 128 := by
      simpa [List.ofFn_succ] using symbolsValue_cons_lt (List.ofFn fun i => d i.succ) hfirst
    exact ⟨_, exec_decodeStr_of_ok hok, (bufValue_beBytes hfits).trans (symbolsValue_ofFn d), rfl, rfl⟩

end Sys2Proof.Machine
end

section
/-! PROOF. 43_sequencer.md, the two commands: what SEQ_INIT leaves, what GEN_MONO emits and records on each path, and
the statements O48 to O52 and O54 that follow from it. -/

namespace Sys2Proof.Machine

/-! SEQ_INIT (43_sequencer.md R161). -/

/-- Settles O48, by the bytes of `zeroBuf` and the path of an empty sequencer. -/
theorem seqInitEmptiesTheSequencer : Obligations.SeqInitEmptiesTheSequencer := by
  unfold Obligations.SeqInitEmptiesTheSequencer
  exact ⟨by decide, fun m s => ⟨_, rfl, zeroBuf_get, rfl, rfl, rfl, rfl, rfl, freshPath_eq_true.2 (.inl rfl)⟩⟩

/-! The identifiers of the two paths. -/

/-- The Fresh path's identifier: the sample, and the draw with its top bit cleared under MITIGATE
(43_sequencer.md R164, R165). -/
def freshIdentifier (s : State) : Bytes 16 := mitigated s.seqCtrl.mitigate (identifier s.clockNow s.randomNow)

/-- The Incrementing path's identifier: inc80 of the last one (43_sequencer.md R166). -/
def nextIdentifier (s : State) : Bytes 16 := withRand s.seqBuf (inc80 s.seqBuf).1

@[simp] theorem timeField_freshIdentifier (s : State) : timeField (freshIdentifier s) = s.clockNow.toNat := by
  simp [freshIdentifier]

@[simp] theorem timeField_nextIdentifier (s : State) : timeField (nextIdentifier s) = timeField s.seqBuf :=
  timeField_withRand ..

theorem randField_nextIdentifier {s : State} (h : randField s.seqBuf ≠ 2 ^ 80 - 1) :
    randField (nextIdentifier s) = randField s.seqBuf + 1 := by
  have hlt := randField_lt s.seqBuf
  rw [nextIdentifier, randField_withRand, be_inc80, Nat.mod_eq_of_lt (by omega)]

/-- MITIGATE's mask touches bit 7 of byte 6 only. -/
theorem mitigated_get_high (m : Bool) (b : Bytes 16) (k : Fin 10) :
    (mitigated m b)[6 + k.val] = if k = 0 ∧ m = true then b[6 + k.val] &&& 0x7F else b[6 + k.val] := by
  cases m with
  | false => simp [mitigated]
  | true =>
    by_cases hk : k = 0
    · simp [mitigated, hk]
    · have hne : 6 ≠ 6 + k.val := fun h => hk (Fin.ext (by simpa using h))
      simp [mitigated, hk, Vector.getElem_set_ne _ _ hne]

theorem freshIdentifier_get_high (s : State) (k : Fin 10) :
    (freshIdentifier s)[6 + k.val] =
      if k = 0 ∧ s.seqCtrl.mitigate = true then s.randomNow[k] &&& 0x7F else s.randomNow[k] := by
  have hdraw : (identifier s.clockNow s.randomNow)[6 + k.val] = s.randomNow[k] := identifier_get_high _ _ k k.isLt
  rw [freshIdentifier, mitigated_get_high, hdraw]

/-- A random segment with its top bit clear is below 2^79. -/
theorem randField_le_of_byte6 {b : Bytes 16} (h : b[6].toNat ≤ 0x7F) : randField b ≤ 2 ^ 79 - 1 := by
  have hsplit : b.toList.drop 6 = b[6] :: b.toList.drop 7 := by
    rw [List.drop_eq_getElem_cons (by simp), Vector.getElem_toList]
  have hrest : be (b.toList.drop 7) < 256 ^ 9 := by simpa using be_lt (b.toList.drop 7)
  rw [randField, hsplit, be_cons]
  simp only [List.length_drop, Vector.length_toList]
  omega

/-! Emission (43_sequencer.md R162, R168). -/

/-- From s to t a command succeeded, emitted b by a path and recorded it, wrote its text with E = 1, and changed
nothing else. -/
structure Emission (e : Bool) (path : Path) (b : Bytes 16) (s t : State) : Prop where
  buf : t.buf = b
  seqBuf : t.seqBuf = t.buf
  seqTime : t.seqTime.toNat = timeField b
  seqCtrl : t.seqCtrl = { valid := true, mitigate := s.seqCtrl.mitigate, lastMode := path }
  text : textWritten e s t
  ok : endsOk s t
  frame : t = { s with buf := t.buf, seqBuf := t.seqBuf, seqTime := t.seqTime, seqCtrl := t.seqCtrl, str := t.str,
                       strLen := t.strLen, status := t.status }

theorem emission_of_emitIdentifier {e : Bool} {path : Path} {b : Bytes 16} {s t : State}
    (h : emitIdentifier e path b s = .next t) : Emission e path b s t := by
  obtain ⟨hbuf, hseqBuf, htime, hctrl, hstatus, hstr, hlen, hframe⟩ := emitIdentifier_next h
  have htext : textWritten e s t := by
    cases e <;> simp [textWritten, hstr, hlen, hbuf]
  exact ⟨hbuf, hseqBuf.trans hbuf.symm, htime, hctrl, htext, hstatus, hframe⟩

theorem emitIdentifier_emits (e : Bool) (path : Path) (b : Bytes 16) (s : State) :
    ∃ t, emitIdentifier e path b s = .next t ∧ Emission e path b s t := by
  obtain ⟨t, ht, -⟩ := completesFrom_emitIdentifier e path b s
  exact ⟨t, ht, emission_of_emitIdentifier ht⟩

/-! The three outcomes of GEN_MONO (43_sequencer.md R163 to R167). -/

theorem exec_genMono_of_fresh {s : State} (e : Bool)
    (h : s.seqCtrl.valid = false ∨ s.seqTime.toNat < s.clockNow.toNat) :
    ∃ t, exec (.genMono e) s = .next t ∧ Emission e .fresh (freshIdentifier s) s.consumeClock.consumeRandom t := by
  have hpath := freshPath_eq_true.2 h
  obtain ⟨-, heq⟩ | ⟨hother, -⟩ | ⟨hother, -⟩ := execGenMono_cases e s
  · obtain ⟨t, ht, hemit⟩ := emitIdentifier_emits e .fresh (freshIdentifier s) s.consumeClock.consumeRandom
    exact ⟨t, heq.trans ht, hemit⟩
  · cases hpath.symm.trans hother
  · cases hpath.symm.trans hother

/-- Where the sequencer holds an identifier and the clock is not above its time, the carry alone decides. -/
theorem exec_genMono_of_not_fresh {s : State} (e : Bool) (hvalid : s.seqCtrl.valid = true)
    (hclock : s.clockNow.toNat ≤ s.seqTime.toNat) :
    exec (.genMono e) s =
      if (inc80 s.seqBuf).2 then .next (withError .overflow s.consumeClock)
      else emitIdentifier e .incrementing (nextIdentifier s) s.consumeClock := by
  have hpath := freshPath_eq_false.2 ⟨hvalid, hclock⟩
  obtain ⟨hother, -⟩ | ⟨-, hcarry, heq⟩ | ⟨-, hcarry, heq⟩ := execGenMono_cases e s
  · cases hpath.symm.trans hother
  · rw [hcarry]; exact heq
  · rw [hcarry]; exact heq

theorem exec_genMono_of_full {s : State} (e : Bool) (hvalid : s.seqCtrl.valid = true)
    (hclock : s.clockNow.toNat ≤ s.seqTime.toNat) (hfull : randField s.seqBuf = 2 ^ 80 - 1) :
    exec (.genMono e) s = .next (withError .overflow s.consumeClock) := by
  rw [exec_genMono_of_not_fresh e hvalid hclock, if_pos ((inc80_carry_iff s.seqBuf).2 hfull)]

theorem exec_genMono_of_incrementing {s : State} (e : Bool) (hvalid : s.seqCtrl.valid = true)
    (hclock : s.clockNow.toNat ≤ s.seqTime.toNat) (hroom : randField s.seqBuf ≠ 2 ^ 80 - 1) :
    ∃ t, exec (.genMono e) s = .next t ∧ Emission e .incrementing (nextIdentifier s) s.consumeClock t := by
  rw [exec_genMono_of_not_fresh e hvalid hclock, if_neg (mt (inc80_carry_iff s.seqBuf).1 hroom)]
  exact emitIdentifier_emits ..

/-- What a successful GEN_MONO did: it emitted by one of the two paths. -/
theorem exec_genMono_success {e : Bool} {s t : State} (h : exec (.genMono e) s = .next t)
    (hok : t.status.err = none) :
    ((s.seqCtrl.valid = false ∨ s.seqTime.toNat < s.clockNow.toNat) ∧
      Emission e .fresh (freshIdentifier s) s.consumeClock.consumeRandom t) ∨
    (s.seqCtrl.valid = true ∧ s.clockNow.toNat ≤ s.seqTime.toNat ∧ randField s.seqBuf ≠ 2 ^ 80 - 1 ∧
      Emission e .incrementing (nextIdentifier s) s.consumeClock t) := by
  by_cases hfresh : s.seqCtrl.valid = false ∨ s.seqTime.toNat < s.clockNow.toNat
  · obtain ⟨t', ht', hemit⟩ := exec_genMono_of_fresh e hfresh
    cases ht'.symm.trans h
    exact .inl ⟨hfresh, hemit⟩
  · obtain ⟨hvalid, hclock⟩ : s.seqCtrl.valid = true ∧ s.clockNow.toNat ≤ s.seqTime.toNat := by simpa using hfresh
    by_cases hfull : randField s.seqBuf = 2 ^ 80 - 1
    · cases (exec_genMono_of_full e hvalid hclock hfull).symm.trans h
      cases hok
    · obtain ⟨t', ht', hemit⟩ := exec_genMono_of_incrementing e hvalid hclock hfull
      cases ht'.symm.trans h
      exact .inr ⟨hvalid, hclock, hfull, hemit⟩

theorem exec_genMono_clockDraws {e : Bool} {s t : State} (h : exec (.genMono e) s = .next t) :
    t.clockDraws = s.clockDraws + 1 := by
  rw [exec_next h]
  cases hdraw : takesDraw (.genMono e) s <;> simp [afterPorts, samplesClock, hdraw]

/-- Settles O49: each path leaves its own LASTMODE, and their conditions exclude each other. -/
theorem genMonoPathSelection : Obligations.GenMonoPathSelection := by
  unfold Obligations.GenMonoPathSelection
  intro e s t h hok
  refine ⟨?_, exec_genMono_clockDraws h⟩
  obtain ⟨hfresh, hemit⟩ | ⟨hvalid, hclock, -, hemit⟩ := exec_genMono_success h hok
  · simp [hemit.seqCtrl, hfresh]
  · simp [hemit.seqCtrl, hvalid, hclock]

/-- Settles O50, by the fields of the Fresh path's identifier and its emission. -/
theorem genMonoFreshEmitsSampleAndDraw : Obligations.GenMonoFreshEmitsSampleAndDraw := by
  unfold Obligations.GenMonoFreshEmitsSampleAndDraw
  refine ⟨by decide, fun e s hfresh => ?_⟩
  obtain ⟨t, ht, hemit⟩ := exec_genMono_of_fresh e hfresh
  refine ⟨t, ht, ?_, fun k => ?_, hemit.seqBuf, ?_, hemit.seqCtrl, hemit.text, hemit.ok, hemit.frame⟩
  · rw [hemit.buf, timeField_freshIdentifier]
  · simp only [hemit.buf, freshIdentifier_get_high]
  · exact BitVec.eq_of_toNat_eq (hemit.seqTime.trans (timeField_freshIdentifier s))

/-- Settles O51, by the bytes of the Fresh path's identifier and the sum on the Incrementing path. -/
theorem mitigationClearsTheTopBit : Obligations.MitigationClearsTheTopBit := by
  unfold Obligations.MitigationClearsTheTopBit
  refine ⟨rfl, fun m s => ⟨_, rfl, rfl⟩, fun e s t h hok => ?_⟩
  obtain ⟨-, hemit⟩ | ⟨-, -, hroom, hemit⟩ := exec_genMono_success h hok
  · have hbytes : ∀ k : Fin 10, t.buf[6 + k.val] =
        if k = 0 ∧ s.seqCtrl.mitigate = true then s.randomNow[k] &&& 0x7F else s.randomNow[k] := fun k => by
      simp only [hemit.buf, freshIdentifier_get_high]
    refine ⟨fun _ hmask => ?_, fun _ hmask k => by simp [hbytes, hmask], by simp [hemit.seqCtrl]⟩
    have htop : t.buf[6] = s.randomNow[0] &&& 0x7F := by simpa [hmask] using hbytes 0
    refine ⟨htop, fun k hk => by simp [hbytes, hk], randField_le_of_byte6 ?_⟩
    rw [htop, BitVec.toNat_and]
    exact Nat.and_le_right
  · refine ⟨by simp [hemit.seqCtrl], by simp [hemit.seqCtrl], fun _ => ?_⟩
    rw [hemit.buf, randField_nextIdentifier hroom]

/-- Settles O52: the carry is read off the random segment, and without one its value grows by 1. -/
theorem genMonoIncrementingAddsOne : Obligations.GenMonoIncrementingAddsOne := by
  unfold Obligations.GenMonoIncrementingAddsOne
  intro e s hvalid hclock
  refine ⟨fun hfull => ⟨_, exec_genMono_of_full e hvalid hclock hfull, rfl⟩, fun hroom => ?_⟩
  obtain ⟨t, ht, hemit⟩ := exec_genMono_of_incrementing e hvalid hclock hroom
  have htime : timeField t.buf = timeField s.seqBuf := by rw [hemit.buf, timeField_nextIdentifier]
  refine ⟨t, ht, htime, fun hinv => htime.trans hinv.ownTimestamp.symm, ?_, hemit.seqBuf,
    hemit.seqTime.trans (timeField_nextIdentifier s), hemit.seqCtrl, hemit.text, hemit.ok, hemit.frame⟩
  rw [hemit.buf, randField_nextIdentifier hroom]

theorem Emission.records {e : Bool} {path : Path} {b : Bytes 16} {s t : State} (h : Emission e path b s t) :
    t.seqBuf = t.buf ∧ t.seqTime.toNat = timeField t.buf ∧ t.seqCtrl.valid = true :=
  ⟨h.seqBuf, h.buf ▸ h.seqTime, by rw [h.seqCtrl]⟩

/-- Settles O54: on either path what is emitted is what is recorded. -/
theorem genMonoRecordsTheEmittedIdentifier : Obligations.GenMonoRecordsTheEmittedIdentifier := by
  unfold Obligations.GenMonoRecordsTheEmittedIdentifier
  intro e s t h hok
  obtain ⟨-, hemit⟩ | ⟨-, -, -, hemit⟩ := exec_genMono_success h hok
  · exact hemit.records
  · exact hemit.records

end Sys2Proof.Machine
end

section
/-! PROOF. 60_exceptions.md, the two ends of a command: every command either succeeds or raises over the state it found,
and the statements O19 and O20 that follow from it. -/

namespace Sys2Proof.Machine

/-- How a command that found s can end (60_exceptions.md R181, R182): it succeeds with a shadow copy that has left
STATUS alone, or it raises an error over s itself, but for what the clock port has yielded (log 6). -/
inductive CommandEnd (s : State) : Host.Outcome State Fault Refusal → Prop
  | success (shadow : State) (hstatus : shadow.status = s.status) : CommandEnd s (succeed shadow)
  | error (e : Err) (clockIn : List Time) (clockDraws : Nat) :
      CommandEnd s (raise e { s with clockIn := clockIn, clockDraws := clockDraws })

/-- From s to t a command raised e: only STATUS and what the clock port has yielded changed. -/
def RaisedFrom (e : Err) (s t : State) : Prop :=
  t = { withError e s with clockIn := t.clockIn, clockDraws := t.clockDraws }

theorem RaisedFrom.err {e : Err} {s t : State} (h : RaisedFrom e s t) : t.status.err = some e := by rw [h]; rfl

theorem CommandEnd.cases_next {s t : State} (h : CommandEnd s (.next t)) : endsOk s t ∨ ∃ e, RaisedFrom e s t := by
  generalize ho : Host.Outcome.next t = o at h
  cases h with
  | success shadow hstatus =>
    obtain rfl := succeed_next ho.symm
    exact .inl (congrArg Status.afterSuccess hstatus)
  | error e clockIn clockDraws =>
    obtain rfl := raise_next ho.symm
    exact .inr ⟨e, rfl⟩

/-! How each command ends. -/

theorem commandEnd_raise (e : Err) (s : State) : CommandEnd s (raise e s) := .error e s.clockIn s.clockDraws

theorem commandEnd_makeAt (e : Bool) (t : Time) {s u : State} (h : u.status = s.status) :
    CommandEnd s (makeAt e t u) := .success _ (by simpa using h)

theorem commandEnd_emitIdentifier (e : Bool) (path : Path) (b : Bytes 16) {s u : State} (h : u.status = s.status) :
    CommandEnd s (emitIdentifier e path b u) := .success _ (by simpa using h)

theorem commandEnd_execMake (src e : Bool) (s : State) : CommandEnd s (execMake src e s) := by
  unfold execMake
  split_ifs
  · exact commandEnd_raise ..
  · exact commandEnd_makeAt _ _ rfl
  · exact commandEnd_makeAt _ _ rfl

theorem commandEnd_execGenMono (e : Bool) (s : State) : CommandEnd s (execGenMono e s) := by
  obtain ⟨-, heq⟩ | ⟨-, -, heq⟩ | ⟨-, -, heq⟩ := execGenMono_cases e s <;> rw [heq]
  · exact commandEnd_emitIdentifier _ _ _ rfl
  · exact commandEnd_emitIdentifier _ _ _ rfl
  · exact .error ..

/-- Every command, decoded, ends in one of the two ways. -/
theorem exec_commandEnd (i : Instr) (s : State) : CommandEnd s (exec i s) := by
  cases i with
  | symEnc imm8 =>
    simp only [exec, execSymEnc]
    split
    · exact .success _ rfl
    · exact commandEnd_raise ..
  | symDec imm8 =>
    simp only [exec, execSymDec]
    split
    · exact .success _ rfl
    · exact commandEnd_raise ..
  | inc t =>
    simp only [exec, execInc]
    split
    · exact commandEnd_raise ..
    · exact .success _ rfl
  | make src e => exact commandEnd_execMake src e s
  | decodeStr =>
    simp only [exec, execDecode]
    split
    · exact commandEnd_raise ..
    · exact .success _ rfl
  | validStr =>
    simp only [exec, execValidStr]
    split <;> exact .success _ rfl
  | genMono e => exact commandEnd_execGenMono e s
  | clear | setTime | getTime | setRand | validBuf | encodeStr | seqInit _ => exact .success _ rfl

/-- A word written to CMD ends in one of the two ways too, with the word stored before it runs. -/
theorem executeCommand_commandEnd (w : Word32) (s : State) : CommandEnd { s with cmd := w } (executeCommand w s) := by
  unfold executeCommand
  split
  · exact exec_commandEnd ..
  · exact commandEnd_raise ..

/-- Settles O19: a written word runs to its end, and its end is a success or a `raise`. -/
theorem everyCommandEndsByWritingErr : Obligations.EveryCommandEndsByWritingErr := by
  unfold Obligations.EveryCommandEndsByWritingErr
  refine ⟨by decide, fun w s => ?_⟩
  obtain ⟨t, ht, -⟩ := executeCommand_completes w s
  refine ⟨t, ht, ?_⟩
  obtain hok | ⟨e, hraised⟩ := (ht ▸ executeCommand_commandEnd w s).cases_next
  · exact .inl hok
  · exact .inr ⟨e, congrArg errCode hraised.err, hraised⟩

/-- Settles O20: a command with an error in ERR did not succeed, so it raised, and it raised that error. -/
theorem anErrorChangesOnlyStatus : Obligations.AnErrorChangesOnlyStatus := by
  unfold Obligations.AnErrorChangesOnlyStatus
  intro i s t e h herr
  obtain hok | ⟨e', hraised⟩ := (h ▸ exec_commandEnd i s).cases_next
  · cases herr.symm.trans (congrArg Status.err hok)
  · cases hraised.err.symm.trans herr
    exact hraised

end Sys2Proof.Machine
end

section
/-! PROOF. 30_encoding.md sections 2 and 3, the round trips: a legal word is made of its own fields, so encoding and
decoding undo each other, and the statements O1, O2 and O4 that follow from it. -/

namespace Sys2Proof.Machine

/-- Settles O1: a command's word names it and sets nothing its row does not list. -/
theorem decodeOfEncodeIsTheCommand : Obligations.DecodeOfEncodeIsTheCommand := by
  unfold Obligations.DecodeOfEncodeIsTheCommand
  exact fun i => decode_encode

/-- A word with its reserved bits 0 is made of its other fields. -/
theorem wordOfFields_fields {w : Word32} (hlow : reservedLow w = 0) (hhigh : reservedHigh w = 0) :
    wordOfFields (opField w) (imm8Field w) (flagT w) (flagS w) (flagE w) (flagM w) = w := by
  simp [word_eq_iff_fields, hlow, hhigh]

/-- The word of the command that w's opcode names has w's own fields, where w sets only the ones its row lists. -/
theorem encode_of_commandOf {w : Word32} {i : Instr} (h : commandOf w = some i)
    (hflags : flagsListed w i.freeFields = true) (himm : imm8Field w ≠ 0 → i.freeFields.imm8 = true) :
    encode i = wordOfFields (opField w) (imm8Field w) (flagT w) (flagS w) (flagE w) (flagM w) := by
  have hop := opField_of_commandOf h
  rw [flagsListed_iff] at hflags
  unfold commandOf at h
  split at h <;> cases h
  all_goals
    simp only [Instr.freeFields, Bool.not_false, Bool.not_true, Bool.and_true, Bool.false_eq_true, imp_false,
      not_not] at hflags himm
    simp only [encode, hflags, himm, ← hop]
    rfl

/-- Settles O2: a legal word's reserved bits are 0, and its other fields are those of its command's word. -/
theorem encodeOfDecodeIsTheWord : Obligations.EncodeOfDecodeIsTheWord := by
  unfold Obligations.EncodeOfDecodeIsTheWord
  intro w i h
  obtain ⟨hi, hflags, hlow, hhigh, himm, hwell⟩ := (decode_eq_ok_iff w i).1 h
  exact ⟨(encode_of_commandOf hi hflags himm).trans (wordOfFields_fields hlow hhigh), hwell⟩

/-- Settles O4: each word is closed, so decoding it is a computation. -/
theorem sampleWordsDecode : Obligations.SampleWordsDecode := by
  unfold Obligations.SampleWordsDecode
  decide

end Sys2Proof.Machine
end

section
/-! PROOF. 10_state.md section 7 and 60_exceptions.md sections 1 and 3: the clock samples a command takes, and how it
ends, with the registers it may write or an error it may raise, each said once, and the statements O21, O22 and O24 that
follow from it. -/

namespace Sys2Proof.Machine

/-! The clock port (60_exceptions.md R189). -/

theorem afterPorts_clockDraws (i : Instr) (s : State) :
    (afterPorts i s).clockDraws = if samplesClock i then s.clockDraws + 1 else s.clockDraws := by
  unfold afterPorts
  cases samplesClock i <;> cases takesDraw i s <;> rfl

theorem afterPorts_clockIn (i : Instr) (s : State) :
    (afterPorts i s).clockIn = if samplesClock i then s.clockIn.tail else s.clockIn := by
  unfold afterPorts
  cases samplesClock i <;> cases takesDraw i s <;> rfl

/-- Settles O24: a command's next state holds the clock port as `afterPorts` leaves it. -/
theorem onlyTheseCommandsSampleTheClock : Obligations.OnlyTheseCommandsSampleTheClock := by
  unfold Obligations.OnlyTheseCommandsSampleTheClock
  intro i s t h
  have hdraws := (congrArg State.clockDraws (exec_next h)).trans (afterPorts_clockDraws i s)
  have hlist := (congrArg State.clockIn (exec_next h)).trans (afterPorts_clockIn i s)
  constructor <;> intro hsamples <;> simp [hdraws, hlist, hsamples]

/-! What a command keeps. -/

/-- The sequencer's registers hold in t what they hold in s (43_sequencer.md R160). -/
structure SameSequencer (s t : State) : Prop where
  seqCtrl : t.seqCtrl = s.seqCtrl
  seqTime : t.seqTime = s.seqTime
  seqBuf : t.seqBuf = s.seqBuf

theorem SameSequencer.refl (s : State) : SameSequencer s s := ⟨rfl, rfl, rfl⟩

theorem SameSequencer.trans {s t u : State} (h : SameSequencer s t) (h' : SameSequencer t u) : SameSequencer s u :=
  ⟨h'.seqCtrl.trans h.seqCtrl, h'.seqTime.trans h.seqTime, h'.seqBuf.trans h.seqBuf⟩

/-- From s to t the registers that the command may not write keep their values, STATUS apart. -/
structure KeepsOthers (i : Instr) (s t : State) : Prop where
  cmd : t.cmd = s.cmd
  timeOp : t.timeOp = s.timeOp
  res : mayWrite i .res = false → t.res = s.res
  string : mayWrite i .strLen = false → t.str = s.str ∧ t.strLen = s.strLen
  buf : ∀ j : Fin 16, mayWrite i (.buf j) = false → t.buf[j] = s.buf[j]
  sequencer : mayWrite i .seqCtrl = false → SameSequencer s t

/-- STATUS and the ports are none of the registers in question. -/
theorem keepsOthers_ports (i : Instr) (s : State) (st : Status) (clockIn : List Time) (clockDraws : Nat)
    (randIn : List (Bytes 10)) (randDraws : Nat) :
    KeepsOthers i s { s with status := st, clockIn := clockIn, clockDraws := clockDraws, randIn := randIn,
                             randDraws := randDraws } :=
  ⟨rfl, rfl, fun _ => rfl, fun _ => ⟨rfl, rfl⟩, fun _ _ => rfl, fun _ => ⟨rfl, rfl, rfl⟩⟩

theorem KeepsOthers.refl (i : Instr) (s : State) : KeepsOthers i s s := keepsOthers_ports ..

/-- What the end of a successful command writes is in STATUS. -/
theorem KeepsOthers.setStatus {i : Instr} {s t : State} (h : KeepsOthers i s t) (st : Status) :
    KeepsOthers i s { t with status := st } := by
  obtain ⟨hcmd, htime, hres, hstring, hbuf, hseq⟩ := h
  exact ⟨hcmd, htime, hres, hstring, hbuf, fun hi => (hseq hi).trans ⟨rfl, rfl, rfl⟩⟩

/-! How a command ends: in success with what it may write, or in an error it may raise. -/

/-- How command i, found in state s, can end (10_state.md R38, 60_exceptions.md R181 to R183). -/
inductive EndsWithinItsRow (i : Instr) (s : State) : Host.Outcome State Fault Refusal → Prop
  | success (shadow : State) (hkeeps : KeepsOthers i s shadow) : EndsWithinItsRow i s (succeed shadow)
  | error (e : Err) (clockIn : List Time) (clockDraws : Nat) (hraise : i.wellFormed = true → mayRaise i e = true) :
      EndsWithinItsRow i s (raise e { s with clockIn := clockIn, clockDraws := clockDraws })

theorem EndsWithinItsRow.keepsOthers {i : Instr} {s t : State} (h : EndsWithinItsRow i s (.next t)) :
    KeepsOthers i s t := by
  generalize ho : Host.Outcome.next t = o at h
  cases h with
  | success shadow hkeeps =>
    obtain rfl := succeed_next ho.symm
    exact hkeeps.setStatus _
  | error e clockIn clockDraws hraise =>
    obtain rfl := raise_next ho.symm
    exact keepsOthers_ports ..

theorem EndsWithinItsRow.mayRaise {i : Instr} {s t : State} {e : Err} (h : EndsWithinItsRow i s (.next t))
    (hwell : i.wellFormed = true) (herr : t.status.err = some e) : mayRaise i e = true := by
  generalize ho : Host.Outcome.next t = o at h
  cases h with
  | success shadow hkeeps =>
    obtain rfl := succeed_next ho.symm
    cases herr
  | error e' clockIn clockDraws hraise =>
    obtain rfl := raise_next ho.symm
    cases herr
    exact hraise hwell

theorem endsWithinItsRow_raise {i : Instr} {e : Err} (s : State) (h : i.wellFormed = true → mayRaise i e = true) :
    EndsWithinItsRow i s (raise e s) := .error e s.clockIn s.clockDraws h

theorem endsWithinItsRow_withRes {i : Instr} (s : State) (v : Nat) (h : mayWrite i .res = true) :
    EndsWithinItsRow i s (succeed (s.withRes v)) :=
  .success _ ⟨rfl, rfl, by simp [h], fun _ => ⟨rfl, rfl⟩, fun _ _ => rfl, fun _ => ⟨rfl, rfl, rfl⟩⟩

/-- A command that writes BUF and no other register may write the bytes that change. -/
theorem endsWithinItsRow_withBuf {i : Instr} {s u : State} {b : Bytes 16} (hu : KeepsOthers i s u)
    (h : ∀ j : Fin 16, mayWrite i (.buf j) = false → b[j] = s.buf[j]) :
    EndsWithinItsRow i s (succeed { u with buf := b }) :=
  .success _ ⟨hu.cmd, hu.timeOp, hu.res, hu.string, h, fun hi => (hu.sequencer hi).trans ⟨rfl, rfl, rfl⟩⟩

theorem endsWithinItsRow_make {src e : Bool} {s u : State} (b : Bytes 16) (hu : KeepsOthers (.make src e) s u) :
    EndsWithinItsRow (.make src e) s (succeed (alsoEncode e b { u with buf := b })) := by
  have hseq : SameSequencer s u := by cases e <;> exact hu.sequencer rfl
  have hres : u.res = s.res := by cases e <;> exact hu.res rfl
  cases e with
  | false => exact .success _ ⟨hu.cmd, hu.timeOp, fun _ => hres, hu.string, nofun, fun _ => hseq.trans ⟨rfl, rfl, rfl⟩⟩
  | true => exact .success _ ⟨hu.cmd, hu.timeOp, fun _ => hres, nofun, nofun, fun _ => hseq.trans ⟨rfl, rfl, rfl⟩⟩

theorem endsWithinItsRow_execMake (src e : Bool) (s : State) : EndsWithinItsRow (.make src e) s (execMake src e s) := by
  cases src with
  | false => exact endsWithinItsRow_make (identifier ..) (keepsOthers_ports ..)
  | true =>
    simp only [execMake, if_true]
    split
    · exact endsWithinItsRow_raise s fun _ => rfl
    · exact endsWithinItsRow_make (identifier ..) (keepsOthers_ports ..)

theorem endsWithinItsRow_emitIdentifier {e : Bool} {s u : State} (path : Path) (b : Bytes 16)
    (hu : KeepsOthers (.genMono e) s u) : EndsWithinItsRow (.genMono e) s (emitIdentifier e path b u) := by
  have hres : u.res = s.res := by cases e <;> exact hu.res rfl
  cases e with
  | false => exact .success _ ⟨hu.cmd, hu.timeOp, fun _ => hres, hu.string, nofun, nofun⟩
  | true => exact .success _ ⟨hu.cmd, hu.timeOp, fun _ => hres, nofun, nofun, nofun⟩

theorem endsWithinItsRow_execGenMono (e : Bool) (s : State) : EndsWithinItsRow (.genMono e) s (execGenMono e s) := by
  obtain ⟨-, heq⟩ | ⟨-, -, heq⟩ | ⟨-, -, heq⟩ := execGenMono_cases e s <;> rw [heq]
  · exact endsWithinItsRow_emitIdentifier _ _ (keepsOthers_ports ..)
  · exact endsWithinItsRow_emitIdentifier _ _ (keepsOthers_ports ..)
  · exact .error .overflow _ _ fun _ => rfl

theorem exec_endsWithinItsRow (i : Instr) (s : State) : EndsWithinItsRow i s (exec i s) := by
  cases i with
  | symEnc v =>
    simp only [exec, execSymEnc]
    split
    · exact endsWithinItsRow_withRes s _ rfl
    · next hill => exact endsWithinItsRow_raise s fun hwell => absurd (of_decide_eq_true hwell) hill
  | symDec c =>
    simp only [exec, execSymDec]
    split
    · exact endsWithinItsRow_withRes s _ rfl
    · exact endsWithinItsRow_raise s fun _ => rfl
  | getTime | validBuf => exact endsWithinItsRow_withRes s _ rfl
  | validStr =>
    simp only [exec, execValidStr]
    split <;> exact endsWithinItsRow_withRes s _ rfl
  | clear => exact endsWithinItsRow_withBuf (.refl _ s) nofun
  | setTime =>
    exact endsWithinItsRow_withBuf (.refl _ s) fun j hj =>
      withTime_get_high _ _ j.isLt (Nat.not_lt.1 (of_decide_eq_false hj))
  | setRand =>
    exact endsWithinItsRow_withBuf (keepsOthers_ports ..) fun j hj =>
      withRand_get_low _ _ (Nat.not_le.1 (of_decide_eq_false hj))
  | inc throwOnOverflow =>
    simp only [exec, execInc]
    split
    · next hthrow =>
      obtain ⟨-, rfl⟩ := Bool.and_eq_true_iff.1 hthrow
      exact endsWithinItsRow_raise s fun _ => rfl
    · exact endsWithinItsRow_withBuf (.refl _ s) fun j hj => withRand_get_low _ _ (Nat.not_le.1 (of_decide_eq_false hj))
  | make src e => exact endsWithinItsRow_execMake src e s
  | encodeStr =>
    exact .success _ ⟨rfl, rfl, fun _ => rfl, nofun, fun _ _ => rfl, fun _ => ⟨rfl, rfl, rfl⟩⟩
  | decodeStr =>
    simp only [exec, execDecode]
    split
    · next e herror =>
      refine endsWithinItsRow_raise s fun _ => ?_
      obtain ⟨-, rfl⟩ | ⟨-, rfl⟩ := dec130_error herror <;> rfl
    · exact endsWithinItsRow_withBuf (.refl _ s) nofun
  | seqInit m =>
    exact .success _ ⟨rfl, rfl, fun _ => rfl, fun _ => ⟨rfl, rfl⟩, fun _ _ => rfl, nofun⟩
  | genMono e => exact endsWithinItsRow_execGenMono e s

theorem exec_keepsOthers {i : Instr} {s t : State} (h : exec i s = .next t) : KeepsOthers i s t :=
  (h ▸ exec_endsWithinItsRow i s).keepsOthers

/-- Settles O21: a command that left an error in ERR raised it, and each raises only its own. -/
theorem commandsRaiseOnlyTheirErrors : Obligations.CommandsRaiseOnlyTheirErrors := by
  unfold Obligations.CommandsRaiseOnlyTheirErrors
  exact fun i s t e hwell h herr => (h ▸ exec_endsWithinItsRow i s).mayRaise hwell herr

/-- A register's value follows from what the command keeps. -/
theorem KeepsOthers.readReg {i : Instr} {s t : State} (h : KeepsOthers i s t) {r : Reg} (hnow : r ≠ .now)
    (hstatus : r ≠ .status) (hr : mayWrite i r = false) : readReg r t = readReg r s := by
  cases r with
  | now => exact absurd rfl hnow
  | status => exact absurd rfl hstatus
  | cmd => exact congrArg (·.setWidth 64) h.cmd
  | timeOp => exact h.timeOp
  | res => exact h.res hr
  | strLen => exact congrArg (·.setWidth 64) (h.string hr).2
  | str j =>
    have hstring : mayWrite i .strLen = false := by cases i <;> exact hr
    exact congrArg (fun str : Bytes 26 => str[j].setWidth 64) (h.string hstring).1
  | seqCtrl => exact congrArg (fun c => (seqCtrlWord c).setWidth 64) (h.sequencer hr).seqCtrl
  | seqTime => exact congrArg seqTimeWord (h.sequencer hr).seqTime
  | buf j => exact congrArg (·.setWidth 64) (h.buf j hr)
  | seqBuf j =>
    have hseq : mayWrite i .seqCtrl = false := by cases i <;> exact hr
    exact congrArg (fun b : Bytes 16 => b[j].setWidth 64) (h.sequencer hseq).seqBuf

/-- The ports' yields are all that a command changes outside the engine. -/
theorem afterPorts_outside (i : Instr) (s : State) :
    (afterPorts i s).pending = s.pending ∧ (afterPorts i s).readData = s.readData ∧
      (afterPorts i s).resetAsserted = s.resetAsserted := by
  unfold afterPorts
  cases samplesClock i <;> cases takesDraw i s <;> exact ⟨rfl, rfl, rfl⟩

/-- Settles O22: what a command keeps, register by register, and the frame of `exec_next`. -/
theorem commandsWriteOnlyTheirRegisters : Obligations.CommandsWriteOnlyTheirRegisters := by
  unfold Obligations.CommandsWriteOnlyTheirRegisters
  intro i s t h
  refine ⟨fun r hnow hstatus hr => (exec_keepsOthers h).readReg hnow hstatus hr, ?_⟩
  obtain ⟨hpending, hread, hreset⟩ := afterPorts_outside i s
  have hframe := exec_next h
  exact ⟨(congrArg State.pending hframe).trans hpending, (congrArg State.readData hframe).trans hread,
    (congrArg State.resetAsserted hframe).trans hreset⟩

end Sys2Proof.Machine
end

section
/-! PROOF. 10_state.md sections 3 and 4, 20_memory.md and 70_reset_and_hazards.md: the status words, the window's place,
the events of the port one at a time and the reset input, and the statements O7 to O11, O14, O17 and O18 that follow
from them. -/

namespace Sys2Proof.Machine

/-! The registers at reset (10_state.md R38) and as words (R29, R31, R32). -/

/-- Settles O7: the arrays hold zero bytes, and every other register is closed. -/
theorem everyRegisterReadsZeroAfterReset : Obligations.EveryRegisterReadsZeroAfterReset := by
  unfold Obligations.EveryRegisterReadsZeroAfterReset
  intro r hr
  cases r with
  | now => exact absurd rfl hr
  | buf i | seqBuf i | str i => simp [readReg, State.reset]
  | cmd | status | timeOp | res | strLen | seqCtrl | seqTime => rfl

theorem statusWord_toNat (st : Status) : (statusWord st).toNat = errCode st.err + 8 * st.sticky.toNat := by
  obtain ⟨err, sticky⟩ := st
  obtain _ | e := err
  · cases sticky <;> rfl
  · cases e <;> cases sticky <;> rfl

theorem errCode_le_five (e : Option Err) : errCode e ≤ 5 := by
  obtain _ | e := e
  · decide
  · cases e <;> decide

theorem seqCtrlWord_toNat (c : SeqCtrl) :
    (seqCtrlWord c).toNat = c.valid.toNat + 2 * c.mitigate.toNat + 4 * c.lastMode.bit.toNat := by
  obtain ⟨valid, mitigate, lastMode⟩ := c
  cases valid <;> cases mitigate <;> cases lastMode <;> rfl

/-- Settles O18, by the value of each word. -/
theorem statusAndSequencerWordsLayout : Obligations.StatusAndSequencerWordsLayout := by
  unfold Obligations.StatusAndSequencerWordsLayout
  refine ⟨by decide, by decide, fun s => ⟨?_, errCode_le_five _, ?_, ?_⟩⟩
  · exact (BitVec.toNat_setWidth_of_le (by decide)).trans (statusWord_toNat _)
  · exact (BitVec.toNat_setWidth_of_le (by decide)).trans (seqCtrlWord_toNat _)
  · exact BitVec.toNat_setWidth_of_le (w' := 64) (show 48 ≤ 64 by decide)

/-! The window's place (20_memory.md R50). -/

/-- Settles O17: the offset is the difference, wherever the window is placed. -/
theorem windowIsAtEngineBase : Obligations.WindowIsAtEngineBase := by
  unfold Obligations.WindowIsAtEngineBase windowOffset
  intro addr off
  split
  · simp only [Option.some.injEq]
    omega
  · simp only [reduceCtorEq, false_iff]
    omega

/-! BUF under host accesses (20_memory.md R55, R56). -/

/-- An access that completed found reset released. -/
theorem released_of_step_access {s t : State} {a : HostAccess} {rest : List PortEvent}
    (hp : s.pending = .access a :: rest) (h : step s = .next t) : s.resetAsserted = false := by
  cases hr : s.resetAsserted with
  | false => rfl
  | true => simp [step_of_pending hp, performEvent, performAccess, hr] at h

/-- Settles O14, by the step of a write of one byte of BUF and that of a read. -/
theorem bufByteReadsBackWhatWasWritten : Obligations.BufByteReadsBackWhatWasWritten := by
  unfold Obligations.BufByteReadsBackWhatWasWritten
  intro s t i j v rest hp h
  have hr := released_of_step_access hp h
  have hwrite := step_writeReg (r := .buf i) hr hp
  obtain rfl : t = { s with pending := .access (.read (0x30 + j.val) 1) :: rest, buf := s.buf.set i v } := by
    simpa [writeReg] using h.symm.trans hwrite
  refine ⟨_, step_readReg (r := .buf j) hr rfl, ?_, rfl⟩
  by_cases hij : i = j
  · simp [readReg, hij]
  · have hne : i.val ≠ j.val := fun hv => hij (Fin.ext hv)
    simp [readReg, hij, Vector.getElem_set_ne _ _ hne]

/-! One event at a time (20_memory.md R62, 70_reset_and_hazards.md R201). -/

/-- Settles O9: an empty list is the step's first arm. -/
theorem withNothingPendingTheEngineWaits : Obligations.WithNothingPendingTheEngineWaits := by
  unfold Obligations.WithNothingPendingTheEngineWaits
  intro s h
  rw [step, h]

/-- The outcome with other events behind the one performed. -/
def withEvents (events : List PortEvent) : Host.Outcome State Fault Refusal → Host.Outcome State Fault Refusal
  | .next t => .next { t with pending := events }
  | .fault f => .fault f
  | .refused r => .refused r

theorem withEvents_makeAt (e : Bool) (t : Time) (s : State) (events : List PortEvent) :
    makeAt e t { s with pending := events } = withEvents events (makeAt e t s) := by
  cases e <;> rfl

theorem withEvents_emitIdentifier (e : Bool) (path : Path) (b : Bytes 16) (s : State) (events : List PortEvent) :
    emitIdentifier e path b { s with pending := events } = withEvents events (emitIdentifier e path b s) := by
  cases e <;> rfl

theorem withEvents_ite {c : Prop} [Decidable c] {a a' b b' : Host.Outcome State Fault Refusal}
    {events : List PortEvent} (ha : a' = withEvents events a) (hb : b' = withEvents events b) :
    (if c then a' else b') = withEvents events (if c then a else b) := by
  rw [ha, hb, apply_ite (withEvents events)]

/-- GEN_MONO's three arms by their conditions (43_sequencer.md R163 to R167). -/
theorem execGenMono_eq (e : Bool) (s : State) :
    execGenMono e s =
      if freshPath s.clockNow s then emitIdentifier e .fresh (freshIdentifier s) s.consumeClock.consumeRandom
      else if (inc80 s.seqBuf).2 then raise .overflow s.consumeClock
      else emitIdentifier e .incrementing (nextIdentifier s) s.consumeClock := rfl

theorem execGenMono_setPending (e : Bool) (s : State) (events : List PortEvent) :
    execGenMono e { s with pending := events } = withEvents events (execGenMono e s) := by
  rw [execGenMono_eq, execGenMono_eq]
  exact withEvents_ite (withEvents_emitIdentifier e _ (freshIdentifier s) s.consumeClock.consumeRandom events)
    (withEvents_ite rfl (withEvents_emitIdentifier e _ (nextIdentifier s) s.consumeClock events))

theorem execMake_setPending (src e : Bool) (s : State) (events : List PortEvent) :
    execMake src e { s with pending := events } = withEvents events (execMake src e s) :=
  withEvents_ite (withEvents_ite rfl (withEvents_makeAt e (timeOperand s) s events))
    (withEvents_makeAt e s.clockNow s.consumeClock events)

/-- A command does not see the events behind it. -/
theorem exec_setPending (i : Instr) (s : State) (events : List PortEvent) :
    exec i { s with pending := events } = withEvents events (exec i s) := by
  cases i with
  | symEnc v => simp only [exec, execSymEnc]; split <;> rfl
  | symDec c => simp only [exec, execSymDec]; split <;> rfl
  | inc t => simp only [exec, execInc]; split <;> rfl
  | make src e => exact execMake_setPending src e s events
  | decodeStr => simp only [exec, execDecode]; split <;> rfl
  | validStr => simp only [exec, execValidStr]; split <;> rfl
  | genMono e => exact execGenMono_setPending e s events
  | clear | setTime | getTime | setRand | validBuf | encodeStr | seqInit _ => rfl

theorem executeCommand_setPending (w : Word32) (s : State) (events : List PortEvent) :
    executeCommand w { s with pending := events } = withEvents events (executeCommand w s) := by
  unfold executeCommand
  split
  · next i hi => exact exec_setPending i { s with cmd := w } events
  · rfl

theorem writeReg_setPending (r : Reg) (v : Nat) (s : State) (events : List PortEvent) :
    writeReg r v { s with pending := events } = withEvents events (writeReg r v s) := by
  cases r with
  | cmd => exact executeCommand_setPending _ s events
  | _ => rfl

theorem performAccess_setPending (a : HostAccess) (s : State) (events : List PortEvent) :
    performAccess a { s with pending := events } = withEvents events (performAccess a s) := by
  refine withEvents_ite rfl ?_
  cases a with
  | read off n =>
    simp only [hostRead]
    split
    · rfl
    · next r _ => cases r <;> rfl
  | write off n v =>
    simp only [hostWrite]
    split
    · rfl
    · exact writeReg_setPending _ v s events

/-- Whatever the port performs, the events behind it play no part and stay. -/
theorem performEvent_setPending (ev : PortEvent) (s : State) (events : List PortEvent) :
    performEvent ev { s with pending := events } = withEvents events (performEvent ev s) := by
  cases ev with
  | access a => exact performAccess_setPending a s events
  | resetLine asserted =>
    simp only [performEvent, setResetLine]
    split <;> rfl

/-- Settles O10: a step performs the oldest event on the rest, and no event sees what is behind it. -/
theorem eventsArePerformedInPortOrder : Obligations.EventsArePerformedInPortOrder := by
  unfold Obligations.EventsArePerformedInPortOrder
  intro s t ev rest hp h
  rw [step_of_pending hp] at h
  have hswap : ∀ others, performEvent ev { s with pending := others } = .next { t with pending := others } := by
    intro others
    have := performEvent_setPending ev { s with pending := rest } others
    rwa [h] at this
  have hrest := h.symm.trans (hswap rest)
  exact ⟨congrArg State.pending (Host.Outcome.next.inj hrest), fun others => (step_of_pending rfl).trans (hswap others)⟩

/-! The reset input (70_reset_and_hazards.md R200). -/

theorem step_resetLine {s : State} {asserted : Bool} {rest : List PortEvent}
    (h : s.pending = .resetLine asserted :: rest) : step s = .next (setResetLine asserted { s with pending := rest }) :=
  step_of_pending h

theorem setResetLine_true (s : State) : setResetLine true s = { s with resetAsserted := true } := by
  simp [setResetLine]

theorem setResetLine_release {s : State} (h : s.resetAsserted = true) :
    setResetLine false s = { resetRegisters s with resetAsserted := false } := by
  simp [setResetLine, h]

/-- No register but NOW depends on what a reset keeps. -/
theorem readReg_resetRegisters {r : Reg} (h : r ≠ .now) (s : State) (asserted : Bool) :
    readReg r { resetRegisters s with resetAsserted := asserted } = 0 := by
  refine .trans ?_ (everyRegisterReadsZeroAfterReset r h)
  cases r with
  | now => exact absurd rfl h
  | _ => rfl

/-- Settles O8, by the three cases of the reset input. -/
theorem resetInputRestoresEveryRegister : Obligations.ResetInputRestoresEveryRegister := by
  unfold Obligations.ResetInputRestoresEveryRegister
  intro s rest
  refine ⟨fun hp => ?_, fun a hr hp => ?_, fun hr hp => ?_⟩
  · exact ⟨_, (step_resetLine hp).trans (congrArg _ (setResetLine_true _)), rfl, rfl⟩
  · simp [step_of_pending hp, performEvent, performAccess, hr]
  · exact ⟨_, (step_resetLine hp).trans (congrArg _ (setResetLine_release hr)),
      fun r hnow => readReg_resetRegisters hnow _ _, rfl, rfl, rfl, rfl⟩

/-- A word written to CMD never clears STICKY. -/
theorem executeCommand_sticky {w : Word32} {s t : State} (h : executeCommand w s = .next t)
    (hs : s.status.sticky = true) : t.status.sticky = true := by
  obtain hok | ⟨e, hraised⟩ := (h ▸ executeCommand_commandEnd w s).cases_next
  · exact (congrArg Status.sticky hok).trans hs
  · exact congrArg (fun u : State => u.status.sticky) hraised

theorem writeReg_sticky {r : Reg} {v : Nat} {s t : State} (h : writeReg r v s = .next t)
    (hs : s.status.sticky = true) : t.status.sticky = true := by
  cases r with
  | cmd => exact executeCommand_sticky h hs
  | _ => cases h <;> exact hs

/-- Settles O11: SEQ_INIT and CLEAR by their equations, and of the steps only a release of the asserted reset input does
not keep STICKY. -/
theorem onlyTheResetInputClearsSticky : Obligations.OnlyTheResetInputClearsSticky := by
  unfold Obligations.OnlyTheResetInputClearsSticky
  refine ⟨fun m s => rfl, fun s => rfl, fun s t hs h hclear => ?_⟩
  obtain ⟨-, rfl⟩ | ⟨asserted, rest, hp, rfl⟩ | ⟨r, rest, -, -, rfl⟩ | ⟨r, v, rest, -, -, hwrite⟩ := step_cases h
  · simp [hs] at hclear
  · cases asserted with
    | true => simp [setResetLine_true, hs] at hclear
    | false =>
      cases hr : s.resetAsserted with
      | true => exact ⟨rfl, rest, hp⟩
      | false => simp [setResetLine, hr, hs] at hclear
  · cases r <;> simp [afterRead, hs] at hclear
  · simp [writeReg_sticky hwrite hs] at hclear

end Sys2Proof.Machine
end

section
/-! PROOF. 40_symbol_codec.md section 1 and 42_string_codec.md section 1: the two symbol tables undo each other, and a
run of bits cut from a number's digits is a run of the number's own bits, so that the spec's bit tables are the
formulas, and the statements O25, O26, O38 and O39 that follow from it. -/

namespace Sys2Proof.Machine

/-! ENC_TABLE and DEC_TABLE (40_symbol_codec.md R100 to R102). -/

/-- Settles O25: the 32 characters, looked up. -/
theorem encTableIsTheAlphabet : Obligations.EncTableIsTheAlphabet := by
  unfold Obligations.EncTableIsTheAlphabet
  decide

/-- The character of a value decodes to that value. -/
theorem decSym_encSym : ∀ v : BitVec 5, decSym (encSym v) = some v := by decide

/-- So does its lower-case form, where it is a letter. -/
theorem decSym_encSym_lower : ∀ v : BitVec 5, 10 ≤ v.toNat → decSym (encSym v + 0x20) = some v := by decide

/-- A byte that decodes is the character of its value in either case. -/
theorem eq_encSym_of_decSym : ∀ c : Byte, ∀ v ∈ decSym c, c = encSym v ∨ (10 ≤ v.toNat ∧ c = encSym v + 0x20) := by
  decide

/-- Settles O26: one direction over the bytes, the other over the values. -/
theorem decSymInvertsEncSymInEitherCase : Obligations.DecSymInvertsEncSymInEitherCase := by
  unfold Obligations.DecSymInvertsEncSymInEitherCase
  refine fun c v => ⟨eq_encSym_of_decSym c v, ?_⟩
  rintro (rfl | ⟨hletter, rfl⟩)
  · exact decSym_encSym v
  · exact decSym_encSym_lower v hletter

/-! Runs of bits of a number written in digits of w bits (42_string_codec.md R140, R141). -/

/-- The digits of a number below the base are its quotients by the base's powers. -/
theorem digits_bigEndian {base : Nat} (hbase : 0 < base) {ds : List Nat} (hd : ∀ d ∈ ds, d < base) :
    (List.range ds.length).map (fun j => bigEndian base ds / base ^ (ds.length - 1 - j) % base) = ds := by
  refine bigEndian_inj (by simp) (fun d hmem => ?_) hd ?_
  · obtain ⟨j, -, rfl⟩ := List.mem_map.1 hmem
    exact Nat.mod_lt _ hbase
  · rw [bigEndian_digits, Nat.mod_eq_of_lt (bigEndian_lt hd)]

theorem getD_eq_bigEndian_div {base : Nat} (hbase : 0 < base) {ds : List Nat} (hd : ∀ d ∈ ds, d < base) {k : Nat}
    (hk : k < ds.length) : ds.getD k 0 = bigEndian base ds / base ^ (ds.length - 1 - k) % base := by
  conv_lhs => rw [← digits_bigEndian hbase hd]
  simp [List.getD_eq_getElem?_getD, hk]

/-- The bits of v from `top`, which is not among them, down to `bot`. -/
def bitsBetween (v top bot : Nat) : Nat := v / 2 ^ bot % 2 ^ (top - bot)

theorem bitsBetween_self (v top : Nat) : bitsBetween v top top = 0 := by simp [bitsBetween, Nat.mod_one]

theorem bitsBetween_of_lt {v top bot : Nat} (h : v < 2 ^ top) (hbot : bot ≤ top) :
    bitsBetween v top bot = v / 2 ^ bot := by
  refine Nat.mod_eq_of_lt (Nat.div_lt_of_lt_mul ?_)
  rwa [← pow_add, Nat.add_sub_cancel' hbot]

/-- Two runs side by side are one run. -/
theorem bitsBetween_append (v : Nat) {top mid bot : Nat} (hbot : bot ≤ mid) (hmid : mid ≤ top) :
    bitsBetween v top mid * 2 ^ (mid - bot) + bitsBetween v mid bot = bitsBetween v top bot := by
  have hdiv : v / 2 ^ mid = v / 2 ^ bot / 2 ^ (mid - bot) := by
    rw [Nat.div_div_eq_div_mul, ← pow_add, Nat.add_sub_cancel' hbot]
  have hwidth : 2 ^ (top - bot) = 2 ^ (mid - bot) * 2 ^ (top - mid) := by
    rw [← pow_add]; congr 1; omega
  simp only [bitsBetween, hdiv, hwidth, Nat.mod_mul]
  ring

/-- Bits hi:lo of a digit are bits of the number, shifted to the digit's place. -/
theorem bitRange_digit (v place : Nat) {w hi lo : Nat} (hhi : hi < w) :
    bitRange (v / 2 ^ place % 2 ^ w) hi lo = bitsBetween v (place + hi + 1) (place + lo) := by
  have hwidth : place + hi + 1 - (place + lo) = hi + 1 - lo := by omega
  rw [bitsBetween, hwidth, ← Nat.shiftRight_eq_div_pow, ← Nat.shiftRight_eq_div_pow, bitRange]
  refine Nat.eq_of_testBit_eq fun k => ?_
  by_cases hk : k < hi + 1 - lo
  · simp [hk, show lo + k < w by omega, Nat.add_assoc]
  · simp [hk]

/-- The pieces run from bit `top`, which is not among them, down to bit `bot` of n digits of w bits, without a gap. -/
def covers (w n : Nat) : Nat → List Piece → Nat → Bool
  | top, [], bot => top == bot
  | top, p :: ps, bot =>
    decide (p.index < n ∧ p.lo ≤ p.hi ∧ p.hi < w ∧ w * (n - 1 - p.index) + p.hi + 1 = top) &&
      covers w n (w * (n - 1 - p.index) + p.lo) ps bot

/-- One step of `piecesValue`: a piece's bits behind those read so far. -/
def appendPiece (a : List Nat) (acc : Nat) (p : Piece) : Nat :=
  acc * 2 ^ (p.hi + 1 - p.lo) + bitRange (a.getD p.index 0) p.hi p.lo

theorem piecesValue_eq_foldl (a : List Nat) (ps : List Piece) : piecesValue a ps = ps.foldl (appendPiece a) 0 := rfl

/-- Pieces without a gap go on reading the number's bits. -/
theorem foldl_appendPiece {w : Nat} {ds : List Nat} (hd : ∀ d ∈ ds, d < 2 ^ w) (top : Nat) :
    ∀ (ps : List Piece) {mid bot : Nat}, mid ≤ top → covers w ds.length mid ps bot = true →
      ps.foldl (appendPiece ds) (bitsBetween (bigEndian (2 ^ w) ds) top mid) =
        bitsBetween (bigEndian (2 ^ w) ds) top bot
  | [], mid, bot, _, h => by
    obtain rfl : mid = bot := by simpa [covers] using h
    rfl
  | p :: ps, mid, bot, hmid, h => by
    simp only [covers, Bool.and_eq_true, decide_eq_true_eq] at h
    obtain ⟨⟨hindex, hlo, hhi, hplace⟩, hrest⟩ := h
    have hdigit : ds.getD p.index 0 = bigEndian (2 ^ w) ds / 2 ^ (w * (ds.length - 1 - p.index)) % 2 ^ w := by
      rw [getD_eq_bigEndian_div (by positivity) hd hindex, ← pow_mul]
    have hstep : appendPiece ds (bitsBetween (bigEndian (2 ^ w) ds) top mid) p =
        bitsBetween (bigEndian (2 ^ w) ds) top (w * (ds.length - 1 - p.index) + p.lo) := by
      have hwidth : p.hi + 1 - p.lo = mid - (w * (ds.length - 1 - p.index) + p.lo) := by omega
      rw [appendPiece, hdigit, bitRange_digit _ _ hhi, hplace, hwidth, bitsBetween_append _ (by omega) hmid]
    rw [List.foldl_cons, hstep]
    exact foldl_appendPiece hd top ps (by omega) hrest

/-- Pieces that cover a run of a number's bits have that run's value. -/
theorem piecesValue_of_covers {w top bot : Nat} {ds : List Nat} {ps : List Piece} (hd : ∀ d ∈ ds, d < 2 ^ w)
    (h : covers w ds.length top ps bot = true) : piecesValue ds ps = bitsBetween (bigEndian (2 ^ w) ds) top bot := by
  rw [piecesValue_eq_foldl, ← foldl_appendPiece hd top ps le_rfl h, bitsBetween_self]

/-! The two tables. -/

/-- The windows of R140 cover the 128 bits of BUF, five by five from the right. -/
theorem covers_windowPieces : ∀ i : Fin 26,
    covers 8 16 (min 128 (130 - 5 * i.val)) (windowPieces.getD i []) (125 - 5 * i.val) = true := by decide

/-- The windows of R141 cover the low 128 bits of the symbols, eight by eight. -/
theorem covers_bytePieces : ∀ j : Fin 16,
    covers 5 26 (8 * (15 - j.val) + 8) (bytePieces.getD j []) (8 * (15 - j.val)) = true := by decide

theorem bytes_lt (bs : List Byte) : ∀ d ∈ bs.map BitVec.toNat, d < 2 ^ 8 := by
  simp only [List.mem_map]
  rintro _ ⟨b, -, rfl⟩
  exact b.isLt

theorem symbols_lt (ds : List (BitVec 5)) : ∀ d ∈ ds.map BitVec.toNat, d < 2 ^ 5 := by
  simp only [List.mem_map]
  rintro _ ⟨d, -, rfl⟩
  exact d.isLt

/-- Settles O38: each window covers the five bits of the formula; the first symbol has three bits, as BUF has 128. -/
theorem encodeFormulaIsTheByteTable : Obligations.EncodeFormulaIsTheByteTable := by
  unfold Obligations.EncodeFormulaIsTheByteTable
  intro b i
  have hlt := bufValue_lt b
  have hwindow : windowSymbol b i.val = bitsBetween (bufValue b) (min 128 (130 - 5 * i.val)) (125 - 5 * i.val) :=
    piecesValue_of_covers (bytes_lt _) (by simpa using covers_windowPieces i)
  have hsymbol :
      (symbolAt (bufValue b) i.val).toNat = bitsBetween (bufValue b) (130 - 5 * i.val) (125 - 5 * i.val) := by
    rw [symbolAt_toNat, bitsBetween, show 130 - 5 * i.val - (125 - 5 * i.val) = 5 by omega]
    rfl
  rw [hwindow, hsymbol]
  obtain htop | htop := Nat.le_total (130 - 5 * i.val) 128
  · rw [min_eq_right htop]
  · rw [min_eq_left htop, bitsBetween_of_lt hlt (by omega),
      bitsBetween_of_lt (hlt.trans_le (Nat.pow_le_pow_right (by decide) htop)) (by omega)]

/-- Settles O39: each byte's window covers its eight bits of the symbols' value. -/
theorem decodeFormulaIsTheSymbolTable : Obligations.DecodeFormulaIsTheSymbolTable := by
  unfold Obligations.DecodeFormulaIsTheSymbolTable
  intro str len v h
  obtain ⟨-, ds, hds, -, rfl⟩ := dec130_ok h
  refine ⟨ds, hds, fun j => ?_⟩
  have hlen : (ds.map BitVec.toNat).length = 26 := by simpa using decSyms_length hds
  have hbyte : byteFromSymbols ds j.val = bitsBetween (symbolsValue ds) (8 * (15 - j.val) + 8) (8 * (15 - j.val)) :=
    piecesValue_of_covers (symbols_lt ds) (by rw [hlen]; exact covers_bytePieces j)
  rw [hbyte, bitsBetween, Nat.add_sub_cancel_left]
  simp [Nat.shiftRight_eq_div_pow]

end Sys2Proof.Machine
end

section
/-! PROOF. 41_identifier_buffer.md section 2 and 42_string_codec.md sections 2 and 3: the increment's second form, the
strings DECODE accepts and what ENCODE makes of them again, and the order of texts, and the statements O34 and O42 to
O47 that follow from them. -/

namespace Sys2Proof.Machine

/-- Settles O34, by what the byte loop leaves and carries out. -/
theorem inc80IsAdditionModulo : Obligations.Inc80IsAdditionModulo := by
  unfold Obligations.Inc80IsAdditionModulo
  exact fun b => ⟨be_inc80 b, inc80_carry_iff b⟩

/-! Symbols and the value they make (00_scope.md R13, 42_string_codec.md R140, R141). -/

/-- Each symbol is a digit, in base 32, of the value the symbols make. -/
theorem toNat_eq_digit {n : Nat} (d : Fin n → BitVec 5) (i : Fin n) :
    (d i).toNat = symbolsValue (List.ofFn d) / 32 ^ (n - 1 - i.val) % 32 := by
  have hdigit := getD_eq_bigEndian_div (base := 32) (by decide) (symbols_lt (List.ofFn d)) (k := i.val) (by simp)
  simpa [symbolsValue] using hdigit

/-- The symbol at a position of a value made of symbols is the symbol there. -/
theorem symbolAt_symbolsValue (d : Fin 26 → BitVec 5) (i : Fin 26) :
    symbolAt (symbolsValue (List.ofFn d)) i.val = d i := by
  apply BitVec.eq_of_toNat_eq
  rw [symbolAt_toNat, show 125 - 5 * i.val = 5 * (26 - 1 - i.val) by omega, pow_mul]
  exact (toNat_eq_digit d i).symm

theorem ofFn_val_eq_map_range {α : Type} (n : Nat) (f : Nat → α) :
    (List.ofFn fun i : Fin n => f i.val) = (List.range n).map f :=
  List.ext_getElem (by simp) fun i _ _ => by simp

/-- The symbols of a 128-bit value make that value. -/
theorem symbolsValue_symbolAt {v : Nat} (h : v < 2 ^ 128) :
    symbolsValue (List.ofFn fun i : Fin 26 => symbolAt v i.val) = v := by
  rw [ofFn_val_eq_map_range, symbolsValue_symbols h]

theorem symbolsValue_ofFn_lt {d : Fin 26 → BitVec 5} (h : (d 0).toNat ≤ 7) : symbolsValue (List.ofFn d) < 2 ^ 128 := by
  simpa [List.ofFn_succ] using symbolsValue_cons_lt (List.ofFn fun i => d i.succ) h

/-! The strings DECODE accepts (42_string_codec.md R141). -/

theorem exists_eq_ofFn {α : Type} {n : Nat} {as : List α} (h : as.length = n) : ∃ f : Fin n → α, as = List.ofFn f := by
  subst h
  exact ⟨as.get, (List.ofFn_get as).symm⟩

theorem decSym_getElem_of_decSyms {n : Nat} {cs : Bytes n} {d : Fin n → BitVec 5}
    (h : decSyms cs.toList = some (List.ofFn d)) (i : Fin n) : decSym cs[i] = some (d i) := by
  simpa using congrArg (fun l : List (Option (BitVec 5)) => l[i.val]?) (decSyms_eq_some.1 h)

/-- The symbols of an accepted string: one for each character, the first at most 7. -/
theorem symbols_of_dec130_ok {str : Bytes 26} {len : Word32} {v : Nat} (h : dec130 str len = .ok v) :
    ∃ d : Fin 26 → BitVec 5, (∀ i : Fin 26, decSym str[i] = some (d i)) ∧ (d 0).toNat ≤ 7 ∧
      v = symbolsValue (List.ofFn d) := by
  obtain ⟨-, ds, hds, hfirst, rfl⟩ := dec130_ok h
  have hlen : ds.length = 26 := by simpa using decSyms_length hds
  obtain ⟨d, rfl⟩ := exists_eq_ofFn hlen
  rw [firstAboveSeven_ofFn] at hfirst
  exact ⟨d, decSym_getElem_of_decSyms hds, Nat.not_lt.1 (of_decide_eq_false hfirst), rfl⟩

/-- The text of a 128-bit value is accepted, with that value. -/
theorem dec130_enc128 {v : Nat} (h : v < 2 ^ 128) : dec130 (enc128 v) 26 = .ok v := by
  have hsymbols : ∀ i : Fin 26, decSym (enc128 v)[i] = some (symbolAt v i.val) := fun i =>
    (congrArg decSym (enc128_get v i i.isLt)).trans (decSym_encSym _)
  have hfirst := symbolAt_zero_le h
  rw [dec130_of_symbols hsymbols, symbolsValue_symbolAt h]
  exact if_neg (by simpa using hfirst)

/-! The upper-case form (40_symbol_codec.md R102). -/

theorem upperCase_encSym : ∀ v : BitVec 5, upperCase (encSym v) = encSym v := by decide

theorem upperCase_encSym_lower : ∀ v : BitVec 5, 10 ≤ v.toNat → upperCase (encSym v + 0x20) = encSym v := by decide

/-- The character of a byte's value is the byte in upper case. -/
theorem encSym_of_decSym {c : Byte} {v : BitVec 5} (h : decSym c = some v) : encSym v = upperCase c := by
  obtain rfl | ⟨hletter, rfl⟩ := eq_encSym_of_decSym c v h
  · exact (upperCase_encSym v).symm
  · exact (upperCase_encSym_lower v hletter).symm

/-- The text of an accepted string's value is the string in upper case. -/
theorem enc128_of_dec130_ok {str : Bytes 26} {len : Word32} {v : Nat} (h : dec130 str len = .ok v) :
    v < 2 ^ 128 ∧ ∀ i : Fin 26, (enc128 v)[i] = upperCase str[i] := by
  obtain ⟨d, hd, hfirst, hv⟩ := symbols_of_dec130_ok h
  rw [hv]
  refine ⟨symbolsValue_ofFn_lt hfirst, fun i => ?_⟩
  have hchar : encSym (symbolAt (symbolsValue (List.ofFn d)) i.val) = upperCase str[i] := by
    rw [symbolAt_symbolsValue, encSym_of_decSym (hd i)]
  exact (enc128_get _ i.val i.isLt).trans hchar

/-! The commands (42_string_codec.md R142 to R146). -/

/-- DECODE succeeds exactly as `dec130` answers. -/
theorem exec_decodeStr_success {s t : State} (h : exec .decodeStr s = .next t) (hok : t.status.err = none) :
    ∃ v, dec130 s.str s.strLen = .ok v ∧ t.buf = beBytes 16 v := by
  cases hdec : dec130 s.str s.strLen with
  | error e =>
    cases (exec_decodeStr_of_error hdec).symm.trans h
    cases hok
  | ok v =>
    cases (exec_decodeStr_of_ok hdec).symm.trans h
    exact ⟨v, rfl, rfl⟩

/-- Settles O42: VALID_STR and DECODE ask `dec130` the same question. -/
theorem validStrTellsWhetherDecodeSucceeds : Obligations.ValidStrTellsWhetherDecodeSucceeds := by
  unfold Obligations.ValidStrTellsWhetherDecodeSucceeds
  refine ⟨by decide, fun s => ?_⟩
  cases hdec : dec130 s.str s.strLen with
  | error e =>
    have hexec : exec .validStr s = succeed (s.withRes 0) := by simp [exec, execValidStr, hdec]
    refine ⟨_, hexec, ⟨nofun, ?_⟩, .inr rfl, rfl, rfl⟩
    rintro ⟨u, hu, hok⟩
    obtain ⟨v, hv, -⟩ := exec_decodeStr_success hu hok
    cases hdec.symm.trans hv
  | ok v =>
    have hexec : exec .validStr s = succeed (s.withRes 1) := by simp [exec, execValidStr, hdec]
    exact ⟨_, hexec, ⟨fun _ => ⟨_, exec_decodeStr_of_ok hdec, rfl⟩, fun _ => rfl⟩, .inl rfl, rfl, rfl⟩

/-- Settles O43: the text of BUF's value decodes to that value. -/
theorem encodeThenDecodeRestoresBuf : Obligations.EncodeThenDecodeRestoresBuf := by
  unfold Obligations.EncodeThenDecodeRestoresBuf
  intro s b
  refine ⟨_, _, rfl, exec_decodeStr_of_ok (dec130_enc128 (bufValue_lt s.buf)), beBytes_bufValue s.buf, rfl⟩

/-- Settles O45: BUF holds the accepted string's value, and that value's text is the string in upper case. -/
theorem decodeThenEncodeGivesUpperCase : Obligations.DecodeThenEncodeGivesUpperCase := by
  unfold Obligations.DecodeThenEncodeGivesUpperCase
  intro s t h hok
  obtain ⟨v, hdec, hbuf⟩ := exec_decodeStr_success h hok
  obtain ⟨hlt, htext⟩ := enc128_of_dec130_ok hdec
  refine ⟨_, rfl, fun i => ?_⟩
  rw [← htext i]
  simp only [hbuf, bufValue_beBytes hlt]

/-- Settles O44: a canonical string is accepted, and it is its own upper-case form. -/
theorem decodeThenEncodeRestoresCanonicalStr : Obligations.DecodeThenEncodeRestoresCanonicalStr := by
  unfold Obligations.DecodeThenEncodeRestoresCanonicalStr
  rintro s ⟨hlen, hchars, v, hv, hfirst⟩
  choose d hd using hchars
  have hsymbols : ∀ i : Fin 26, decSym s.str[i] = some (d i) := fun i => by rw [hd i, decSym_encSym]
  have hv0 : d 0 = v := Option.some.inj ((hsymbols 0).symm.trans (hv ▸ decSym_encSym v))
  have hdec : dec130 s.str s.strLen = .ok (symbolsValue (List.ofFn d)) := by
    rw [hlen, dec130_of_symbols hsymbols, hv0, if_neg (Nat.not_lt.2 hfirst)]
  obtain ⟨u, hu, htext⟩ := decodeThenEncodeGivesUpperCase s _ (exec_decodeStr_of_ok hdec) rfl
  refine ⟨_, u, exec_decodeStr_of_ok hdec, rfl, hu, Vector.ext fun i hi => ?_, ?_⟩
  · have hupper : upperCase s.str[i] = s.str[i] := by
      have hchar : s.str[i] = encSym (d ⟨i, hi⟩) := hd ⟨i, hi⟩
      rw [hchar, upperCase_encSym]
    exact (htext ⟨i, hi⟩).trans hupper
  · cases hu
    exact hlen.symm

/-- Settles O46: a 128-bit value's first symbol is its top three bits, and DECODE checks the bound itself. -/
theorem firstSymbolIsAtMostSeven : Obligations.FirstSymbolIsAtMostSeven := by
  unfold Obligations.FirstSymbolIsAtMostSeven
  refine ⟨fun s => ⟨_, _, rfl, enc128_get _ 0 (by decide), symbolAt_zero_le (bufValue_lt s.buf)⟩, fun s t h hok => ?_⟩
  obtain ⟨v, hdec, -⟩ := exec_decodeStr_success h hok
  obtain ⟨d, hd, hfirst, -⟩ := symbols_of_dec130_ok hdec
  exact ⟨d 0, hd 0, hfirst⟩

/-! The order of texts (42_string_codec.md R147). -/

/-- Numbers of equally many digits are ordered as their digits are written, in any writing g that keeps the digits'
order. -/
theorem bigEndian_lt_iff_map_lt {α β : Type} [LT β] {base : Nat} {f : α → Nat} {g : α → β}
    (hlt : ∀ x y, g x < g y ↔ f x < f y) (heq : ∀ x y, g x = g y ↔ f x = f y) (hf : ∀ x, f x < base) :
    ∀ {as bs : List α}, as.length = bs.length →
      (bigEndian base (as.map f) < bigEndian base (bs.map f) ↔ as.map g < bs.map g)
  | [], [], _ => by simp
  | a :: as, b :: bs, hl => by
    have hlen : as.length = bs.length := by simpa using hl
    have hA : bigEndian base (as.map f) < base ^ bs.length := by
      simpa [hlen] using bigEndian_lt (ds := as.map f) (by simpa using fun x _ => hf x)
    have hB : bigEndian base (bs.map f) < base ^ bs.length := by
      simpa using bigEndian_lt (ds := bs.map f) (by simpa using fun x _ => hf x)
    simp only [List.map_cons, List.cons_lt_cons_iff, bigEndian_cons, List.length_map, hlt, heq, hlen,
      ← bigEndian_lt_iff_map_lt hlt heq hf hlen]
    obtain h | h | h := Nat.lt_trichotomy (f a) (f b)
    · have := Nat.mul_le_mul_right (base ^ bs.length) (Nat.succ_le_of_lt h)
      rw [Nat.succ_mul] at this
      omega
    · rw [h]; omega
    · have := Nat.mul_le_mul_right (base ^ bs.length) (Nat.succ_le_of_lt h)
      rw [Nat.succ_mul] at this
      omega

/-- The alphabet's order is the order of its characters' codes. -/
theorem encSym_lt_iff : ∀ x y : BitVec 5, encSym x < encSym y ↔ x.toNat < y.toNat := by decide

theorem encSym_eq_iff (x y : BitVec 5) : encSym x = encSym y ↔ x.toNat = y.toNat := by
  rw [BitVec.toNat_inj]
  refine ⟨fun h => ?_, congrArg encSym⟩
  exact Option.some.inj ((decSym_encSym x).symm.trans ((congrArg decSym h).trans (decSym_encSym y)))

/-- Settles O47: bytes and characters are two writings of the value's digits, to the bases 256 and 32. -/
theorem textOrderIsNumericOrder : Obligations.TextOrderIsNumericOrder := by
  unfold Obligations.TextOrderIsNumericOrder
  intro a b
  constructor
  · have hbytes := bigEndian_lt_iff_map_lt (base := 256) (f := BitVec.toNat) (g := (id : Byte → Byte))
      (fun x y => BitVec.lt_def) (fun x y => BitVec.toNat_inj.symm) (fun x => x.isLt) (as := a.toList) (bs := b.toList)
      (by simp)
    simpa [bufValue, be] using hbytes
  · have htext := bigEndian_lt_iff_map_lt (base := 32) (f := BitVec.toNat) (g := encSym) encSym_lt_iff encSym_eq_iff
      (fun x => x.isLt) (as := (List.range 26).map (symbolAt (bufValue a)))
      (bs := (List.range 26).map (symbolAt (bufValue b))) (by simp)
    have ha := symbolsValue_symbols (bufValue_lt a)
    have hb := symbolsValue_symbols (bufValue_lt b)
    rw [symbolsValue] at ha hb
    rw [ha, hb, List.map_map, List.map_map] at htext
    rw [toList_enc128, toList_enc128]
    exact htext

end Sys2Proof.Machine
end

section
/-! PROOF. 43_sequencer.md: what one step can do to the sequencer, the invariant that every step keeps, the order of the
identifiers one generator emits, and the statements O53 and O55 to O60 that follow from it. -/

namespace Sys2Proof.Machine

/-! The host's registers (43_sequencer.md R162, 10_state.md section 4). -/

/-- Two emissions of one identifier agree in what the host's registers could have influenced. -/
theorem Emission.agree {e : Bool} {path : Path} {b : Bytes 16} {s s' t u : State} (h : Emission e path b s t)
    (h' : Emission e path b s' u) (hctrl : s'.seqCtrl = s.seqCtrl) (hstatus : s'.status = s.status) :
    u.status = t.status ∧ u.seqBuf = t.seqBuf ∧ u.seqTime = t.seqTime ∧ u.seqCtrl = t.seqCtrl ∧
      (t.status.err = none → u.buf = t.buf) := by
  have hbuf : u.buf = t.buf := h'.buf.trans h.buf.symm
  refine ⟨?_, ?_, ?_, ?_, fun _ => hbuf⟩
  · rw [h.ok, h'.ok, hstatus]
  · rw [h.seqBuf, h'.seqBuf, hbuf]
  · exact BitVec.eq_of_toNat_eq (h'.seqTime.trans h.seqTime.symm)
  · rw [h.seqCtrl, h'.seqCtrl, hctrl]

/-- Settles O55: the path, the identifier and the carry are read off the sequencer and the ports alone. -/
theorem genMonoIgnoresTheHostsRegisters : Obligations.GenMonoIgnoresTheHostsRegisters := by
  unfold Obligations.GenMonoIgnoresTheHostsRegisters
  intro e s t b str len cmd op res h
  by_cases hfresh : s.seqCtrl.valid = false ∨ s.seqTime.toNat < s.clockNow.toNat
  · obtain ⟨t', ht', hemit⟩ := exec_genMono_of_fresh e hfresh
    cases ht'.symm.trans h
    obtain ⟨u, hu, hemit'⟩ := exec_genMono_of_fresh
      (s := { s with buf := b, str := str, strLen := len, timeOp := op, res := res, cmd := cmd }) e hfresh
    exact ⟨u, hu, hemit.agree hemit' rfl rfl⟩
  · obtain ⟨hvalid, hclock⟩ : s.seqCtrl.valid = true ∧ s.clockNow.toNat ≤ s.seqTime.toNat := by simpa using hfresh
    by_cases hfull : randField s.seqBuf = 2 ^ 80 - 1
    · cases (exec_genMono_of_full e hvalid hclock hfull).symm.trans h
      exact ⟨_, exec_genMono_of_full e hvalid hclock hfull, rfl, rfl, rfl, rfl, nofun⟩
    · obtain ⟨t', ht', hemit⟩ := exec_genMono_of_incrementing e hvalid hclock hfull
      cases ht'.symm.trans h
      obtain ⟨u, hu, hemit'⟩ := exec_genMono_of_incrementing
        (s := { s with buf := b, str := str, strLen := len, timeOp := op, res := res, cmd := cmd })
        e hvalid hclock hfull
      exact ⟨u, hu, hemit.agree hemit' rfl rfl⟩

/-! What a step can do to the sequencer. -/

/-- The sequencer is empty, as reset and SEQ_INIT leave it (43_sequencer.md R160, R161). -/
structure EmptySequencer (s : State) : Prop where
  lastMode : s.seqCtrl.lastMode = .fresh
  seqTime : s.seqTime = 0
  seqBuf : s.seqBuf = zeroBuf

theorem setResetLine_sequencer (asserted : Bool) (s : State) :
    SameSequencer s (setResetLine asserted s) ∨ EmptySequencer (setResetLine asserted s) := by
  unfold setResetLine
  split
  · exact .inr ⟨rfl, rfl, rfl⟩
  · exact .inl ⟨rfl, rfl, rfl⟩

theorem exec_seqInit_empties {m : Bool} {s t : State} (h : exec (.seqInit m) s = .next t) : EmptySequencer t := by
  cases h
  exact ⟨rfl, rfl, rfl⟩

theorem endsGenerator_of_resetLine {s : State} {asserted : Bool} {rest : List PortEvent}
    (h : s.pending = .resetLine asserted :: rest) : endsGenerator s = true := by
  simp [endsGenerator, h]

theorem endsGenerator_of_seqInit {s : State} {v : Nat} {m : Bool} {rest : List PortEvent}
    (hp : s.pending = .access (.write 0 4 v) :: rest) (hdec : decode (BitVec.ofNat 32 v) = .ok (.seqInit m)) :
    endsGenerator s = true := by
  simp [endsGenerator, hp, hdec]

/-- A command that raised wrote no register of the sequencer. -/
theorem sameSequencer_of_err {i : Instr} {s t : State} {e : Err} (h : exec i s = .next t)
    (herr : t.status.err = some e) : SameSequencer s t := by
  rw [anErrorChangesOnlyStatus i s t e h herr]
  exact ⟨rfl, rfl, rfl⟩

/-- The commands that may write the sequencer's registers (10_state.md R38). -/
theorem seqInit_or_genMono_of_mayWrite {i : Instr} (h : mayWrite i .seqCtrl = true) :
    (∃ m, i = .seqInit m) ∨ ∃ e, i = .genMono e := by
  cases i with
  | seqInit m => exact .inl ⟨m, rfl⟩
  | genMono e => exact .inr ⟨e, rfl⟩
  | make src e => cases e <;> cases h
  | _ => cases h

/-- A step keeps the sequencer's registers, or gives the generator up and empties it, or is a successful GEN_MONO. -/
theorem step_sequencer {s t : State} (h : step s = .next t) :
    SameSequencer s t ∨ (endsGenerator s = true ∧ EmptySequencer t) ∨ emits s t := by
  obtain ⟨-, rfl⟩ | ⟨asserted, rest, hp, rfl⟩ | ⟨r, rest, -, -, rfl⟩ | ⟨r, v, rest, hp, hr, hwrite⟩ := step_cases h
  · exact .inl (.refl _)
  · obtain hsame | hempty := setResetLine_sequencer asserted { s with pending := rest }
    · exact .inl ⟨hsame.seqCtrl, hsame.seqTime, hsame.seqBuf⟩
    · exact .inr (.inl ⟨endsGenerator_of_resetLine hp, hempty⟩)
  · left
    cases r <;> exact ⟨rfl, rfl, rfl⟩
  · cases r with
    | cmd =>
      have hfound : SameSequencer s { s with pending := rest, cmd := BitVec.ofNat 32 v } := ⟨rfl, rfl, rfl⟩
      obtain ⟨i, hdec, hexec⟩ | ⟨why, -, hraise⟩ := executeCommand_cases hwrite
      · cases hseq : mayWrite i .seqCtrl with
        | false => exact .inl (hfound.trans ((exec_keepsOthers hexec).sequencer hseq))
        | true =>
          obtain ⟨m, rfl⟩ | ⟨e, rfl⟩ := seqInit_or_genMono_of_mayWrite hseq
          · exact .inr (.inl ⟨endsGenerator_of_seqInit hp hdec, exec_seqInit_empties hexec⟩)
          · cases herr : t.status.err with
            | none => exact .inr (.inr ⟨v, e, rest, hp, hdec, h, herr⟩)
            | some err => exact .inl (hfound.trans (sameSequencer_of_err hexec herr))
      · obtain rfl := raise_next hraise
        exact .inl ⟨rfl, rfl, rfl⟩
    | timeOp | strLen | buf j | str j =>
      cases hwrite
      exact .inl ⟨rfl, rfl, rfl⟩
    | status | res | now | seqCtrl | seqTime | seqBuf j => cases hwrite

/-! What an emission makes of the sequencer (43_sequencer.md R163 to R168). -/

/-- The sequencer holds an identifier and that identifier's own timestamp. -/
structure Running (s : State) : Prop where
  valid : s.seqCtrl.valid = true
  ownTimestamp : s.seqTime.toNat = timeField s.seqBuf

theorem Running.of_same {s t : State} (h : SameSequencer s t) (hs : Running s) : Running t :=
  ⟨by rw [h.seqCtrl, hs.valid], by rw [h.seqTime, h.seqBuf, hs.ownTimestamp]⟩

/-- The identifier t holds is the next one after s's sequencer, by the path that LASTMODE names. -/
def NextIdentifier (s t : State) : Prop :=
  (t.seqCtrl.lastMode = .fresh ∧ (s.seqCtrl.valid = true → s.seqTime.toNat < timeField t.buf)) ∨
  (t.seqCtrl.lastMode = .incrementing ∧ timeField t.buf = timeField s.seqBuf ∧
    randField t.buf = randField s.seqBuf + 1)

/-- A successful GEN_MONO, seen from the step: it records what it emits, and that is the next identifier. -/
theorem emits_next {s t : State} (h : emits s t) : Running t ∧ t.seqBuf = t.buf ∧ NextIdentifier s t := by
  obtain ⟨v, e, rest, hp, hdec, hstep, hok⟩ := h
  rw [step_writeCmd (released_of_step_access hp hstep) hp, executeCommand_of_legal _ hdec] at hstep
  obtain ⟨hfresh, hemit⟩ | ⟨-, -, hroom, hemit⟩ := exec_genMono_success hstep hok
  all_goals
    obtain ⟨hseqBuf, htime, hvalid⟩ := hemit.records
    refine ⟨⟨hvalid, htime.trans (by rw [hseqBuf])⟩, hseqBuf, ?_⟩
  · refine .inl ⟨by rw [hemit.seqCtrl], fun hvalid' => ?_⟩
    rw [hemit.buf, timeField_freshIdentifier]
    exact hfresh.resolve_left (by simp [hvalid'])
  · refine .inr ⟨by rw [hemit.seqCtrl], ?_, ?_⟩ <;> rw [hemit.buf]
    · exact timeField_nextIdentifier _
    · exact randField_nextIdentifier hroom

/-! The invariant (10_state.md R34). -/

theorem SequencerInv.of_empty {s : State} (h : EmptySequencer s) : SequencerInv s :=
  ⟨by rw [h.seqTime, h.seqBuf, timeField_zeroBuf]; rfl, fun _ => ⟨h.seqBuf, h.lastMode⟩⟩

theorem SequencerInv.of_same {s t : State} (h : SameSequencer s t) (hs : SequencerInv s) : SequencerInv t := by
  obtain ⟨hctrl, htime, hbuf⟩ := h
  exact ⟨by rw [htime, hbuf, hs.ownTimestamp], by rw [hctrl, hbuf]; exact hs.emptyIsZero⟩

theorem SequencerInv.of_running {s : State} (h : Running s) : SequencerInv s :=
  ⟨h.ownTimestamp, fun hinvalid => by simp [h.valid] at hinvalid⟩

/-- Settles O57: reset leaves the sequencer empty. -/
theorem sequencerInvariantHoldsAtReset : Obligations.SequencerInvariantHoldsAtReset := by
  unfold Obligations.SequencerInvariantHoldsAtReset
  exact .of_empty ⟨rfl, rfl, rfl⟩

/-- Settles O56: a step keeps the sequencer, empties it, or records what it emits. -/
theorem everyStepKeepsTheSequencerInvariant : Obligations.EveryStepKeepsTheSequencerInvariant := by
  unfold Obligations.EveryStepKeepsTheSequencerInvariant
  intro s t hinv h
  obtain hsame | ⟨-, hempty⟩ | hemits := step_sequencer h
  · exact .of_same hsame hinv
  · exact .of_empty hempty
  · exact .of_running (emits_next hemits).1

/-! The order of the identifiers (43_sequencer.md R169). -/

theorem bufValue_lt_of_timeField_lt {a b : Bytes 16} (h : timeField a < timeField b) : bufValue a < bufValue b := by
  have hrand := randField_lt a
  rw [bufValue_eq, bufValue_eq]
  omega

/-- The next identifier after a running sequencer's is greater. -/
theorem bufValue_lt_of_next {s t : State} (hs : Running s) (h : NextIdentifier s t) :
    bufValue s.seqBuf < bufValue t.buf := by
  obtain ⟨-, htime⟩ | ⟨-, htime, hrand⟩ := h
  · exact bufValue_lt_of_timeField_lt (hs.ownTimestamp ▸ htime hs.valid)
  · rw [bufValue_eq, bufValue_eq, htime, hrand]
    omega

/-- While one generator runs, what its sequencer holds never gets smaller. -/
theorem sameGenerator_monotone {s t : State} (h : sameGenerator s t) (hs : Running s) :
    Running t ∧ bufValue s.seqBuf ≤ bufValue t.seqBuf := by
  unfold sameGenerator at h
  induction h with
  | refl => exact ⟨hs, le_rfl⟩
  | tail _ hstep hkept ih =>
    obtain ⟨hrunning, hle⟩ := ih
    obtain hsame | ⟨hends, -⟩ | hemits := step_sequencer hstep
    · exact ⟨.of_same hsame hrunning, by rwa [hsame.seqBuf]⟩
    · simp [hkept] at hends
    · obtain ⟨hrunning', hbuf, hnext⟩ := emits_next hemits
      exact ⟨hrunning', hbuf ▸ hle.trans (bufValue_lt_of_next hrunning hnext).le⟩

/-- Steps that neither emit nor give the generator up keep the sequencer. -/
theorem nothingEmitted_sameSequencer {s t : State} (h : nothingEmitted s t) : SameSequencer s t := by
  unfold nothingEmitted at h
  induction h with
  | refl => exact .refl _
  | tail _ hstep hkept ih =>
    obtain ⟨hends, hemits⟩ := hkept
    obtain hsame | ⟨hends', -⟩ | hemits' := step_sequencer hstep
    · exact ih.trans hsame
    · simp [hends] at hends'
    · exact absurd hemits' hemits

/-- Settles O58: the first identifier is recorded, nothing makes the record smaller, and the next one is greater. -/
theorem emittedIdentifiersStrictlyIncrease : Obligations.EmittedIdentifiersStrictlyIncrease := by
  unfold Obligations.EmittedIdentifiersStrictlyIncrease
  intro s₀ s₁ s₂ s₃ hfirst hbetween hsecond
  obtain ⟨hrunning₁, hbuf₁, -⟩ := emits_next hfirst
  obtain ⟨hrunning₂, hle⟩ := sameGenerator_monotone hbetween hrunning₁
  obtain ⟨-, -, hnext⟩ := emits_next hsecond
  exact (hbuf₁ ▸ hle).trans_lt (bufValue_lt_of_next hrunning₂ hnext)

/-- Settles O59: the record of the first identifier is still there when the second is made from it. -/
theorem consecutiveIdentifiersByPath : Obligations.ConsecutiveIdentifiersByPath := by
  unfold Obligations.ConsecutiveIdentifiersByPath
  intro s₀ s₁ s₂ s₃ hfirst hbetween hsecond
  obtain ⟨hrunning₁, hbuf₁, -⟩ := emits_next hfirst
  have hsame := nothingEmitted_sameSequencer hbetween
  have hrunning₂ := hrunning₁.of_same hsame
  have hbuf₂ : s₂.seqBuf = s₁.buf := hsame.seqBuf.trans hbuf₁
  obtain ⟨-, -, ⟨hmode, htime⟩ | ⟨hmode, htime, hrand⟩⟩ := emits_next hsecond
  · refine ⟨fun hother => by simp [hmode] at hother, fun _ => ?_⟩
    rw [← hbuf₂, ← hrunning₂.ownTimestamp]
    exact htime hrunning₂.valid
  · rw [hbuf₂] at htime hrand
    refine ⟨fun _ => ⟨htime, ?_⟩, fun hother => by simp [hmode] at hother⟩
    rw [bufValue_eq, bufValue_eq, htime, hrand, Nat.add_assoc]

/-! An exhausted random segment (43_sequencer.md R167, R171). -/

/-- Settles O53: Overflow and what follows keep the full sequencer, and the next sample alone decides. -/
theorem genMonoOverflowEmitsNothing : Obligations.GenMonoOverflowEmitsNothing := by
  unfold Obligations.GenMonoOverflowEmitsNothing
  intro e e' s u hvalid hclock hfull
  refine ⟨exec_genMono_of_full e hvalid hclock hfull, fun hbetween => ?_⟩
  have hraised : SameSequencer s (withError .overflow s.consumeClock) := ⟨rfl, rfl, rfl⟩
  obtain ⟨hctrl, htime, hbuf⟩ := hraised.trans (nothingEmitted_sameSequencer hbetween)
  constructor
  · intro hstill
    exact exec_genMono_of_full e' (by rw [hctrl, hvalid]) (by rwa [htime]) (by rwa [hbuf])
  · intro htick
    obtain ⟨t, ht, hemit⟩ := exec_genMono_of_fresh (s := u) e' (.inr (by rwa [htime]))
    exact ⟨t, ht, congrArg Status.err hemit.ok, by rw [hemit.seqCtrl]⟩

theorem clockAhead_congr : ∀ (n : Nat) {s t : State}, s.clockIn = t.clockIn → s.clockDraws = t.clockDraws →
    clockAhead n s = clockAhead n t
  | 0, _, _, hin, hdraws => clockNow_congr hin hdraws
  | n + 1, s, t, hin, hdraws =>
    clockAhead_congr n (s := s.consumeClock) (t := t.consumeClock) (by simp [hin]) (by simp [hdraws])

/-- After a GEN_MONO the clock port is one sample further. -/
theorem clockAhead_after_genMono {e : Bool} {s t : State} (h : exec (.genMono e) s = .next t) (n : Nat) :
    clockAhead n t = clockAhead (n + 1) s := by
  obtain ⟨hdraws, hin⟩ := (onlyTheseCommandsSampleTheClock (.genMono e) s t h).1 rfl
  exact clockAhead_congr n (t := s.consumeClock) hin hdraws

/-- Settles O60, by induction on the number of increments: each takes one from the budget and one sample from the
clock. -/
theorem incrementBudgetIsExact : Obligations.IncrementBudgetIsExact := by
  unfold Obligations.IncrementBudgetIsExact
  intro e k
  induction k with
  | zero =>
    intro s hvalid htime hclock hk
    have hlt := randField_lt s.seqBuf
    refine ⟨s, rfl, nofun, rfl, rfl, rfl, fun hfull => ?_⟩
    exact exec_genMono_of_full e hvalid (hclock 0 le_rfl) (by omega)
  | succ k ih =>
    intro s hvalid htime hclock hk
    have hroom : randField s.seqBuf ≠ 2 ^ 80 - 1 := by omega
    obtain ⟨t, ht, hemit⟩ := exec_genMono_of_incrementing e hvalid (hclock 0 (Nat.zero_le _)) hroom
    obtain ⟨hseqBuf, -, hvalid'⟩ := hemit.records
    have hstatus : t.status = { err := none, sticky := s.status.sticky } := hemit.ok
    have hbuf : t.seqBuf = nextIdentifier s := hseqBuf.trans hemit.buf
    have htime' : t.seqTime.toNat = s.seqTime.toNat := by
      rw [hemit.seqTime, timeField_nextIdentifier, htime]
    have hrand' : randField t.seqBuf = randField s.seqBuf + 1 := by rw [hbuf, randField_nextIdentifier hroom]
    have hfield' : timeField t.seqBuf = timeField s.seqBuf := by rw [hbuf, timeField_nextIdentifier]
    have hclock' : ∀ j ≤ k, (clockAhead j t).toNat ≤ t.seqTime.toNat := by
      intro j hj
      rw [clockAhead_after_genMono ht, htime']
      exact hclock (j + 1) (Nat.succ_le_succ hj)
    obtain ⟨u, hu, herr, hsticky, hfield, hrand, hlast⟩ :=
      ih t hvalid' (by rw [htime', htime, hfield']) hclock' (by omega)
    refine ⟨u, by simp [execTimes, ht, hu], fun _ => ?_, ?_, hfield.trans hfield', by omega, fun hfull => ?_⟩
    · obtain rfl | hpos := k.eq_zero_or_pos
      · cases hu
        rw [hstatus]
      · exact herr hpos
    · rw [hsticky, hstatus]
    · exact hlast (by omega)

end Sys2Proof.Machine
end
